-- ==== Sys2Proof/Word.lean ====
section
/-!
DEFINITION. The fixed-width words of the SimulatorAVR core (spec/00_scope.md R5, R10): 8-bit data cells and
16-bit program cells. Nothing else is fixed here; every rule states its own raw result, wrap and carry (R11).
-/
namespace Sys2Proof

/-- A data-memory cell, a general register, the flags register: 8 bits (R5). -/
abbrev Byte := BitVec 8

/-- A program-memory cell, an instruction, the program counter: 16 bits (R5). -/
abbrev Word := BitVec 16

end Sys2Proof
end

