-- ==== Sys2Proof/Syntax.lean ====
section
/-!
DEFINITION. The nineteen instructions of the repertoire (spec/00_scope.md R2), one constructor per row of
spec/opcode_table.json, with the operand fields of 30_encoding.md R81 to R88.
-/
namespace Sys2Proof

/-- A register number 0..31 (10_state.md R22, R23). -/
abbrev RegNum := BitVec 5
/-- A flag index 0..7 (30_encoding.md R86). -/
abbrev FlagIndex := BitVec 3
/-- A port number 0..63 (30_encoding.md R88). -/
abbrev PortNum := BitVec 6
/-- The 7-bit direct-address field, before DirectAddr (30_encoding.md R84). -/
abbrev DirectField := BitVec 7
/-- The 12-bit two's-complement offset of Rjmp (30_encoding.md R85). -/
abbrev JumpOffset := BitVec 12
/-- The 7-bit two's-complement offset of Brbs and Brbc (30_encoding.md R86). -/
abbrev BranchOffset := BitVec 7

/-- The instructions, in the order of the opcode table. Operands stand in the order of the assembler syntax
(30_encoding.md R97): destination first, port first for Out, address first for Sts. -/
inductive Instr where
  | nop
  | add (d r : RegNum)
  | sub (d r : RegNum)
  | adc (d r : RegNum)
  | and (d r : RegNum)
  | eor (d r : RegNum)
  | or (d r : RegNum)
  | mov (d r : RegNum)
  | subi (d : RegNum) (imm : Byte)
  | lsr (d : RegNum)
  | brk
  | lds (d : RegNum) (k : DirectField)
  | sts (k : DirectField) (d : RegNum)
  | inp (d : RegNum) (port : PortNum)
  | out (port : PortNum) (d : RegNum)
  | rjmp (k : JumpOffset)
  | ldi (d : RegNum) (imm : Byte)
  | brbs (s : FlagIndex) (k : BranchOffset)
  | brbc (s : FlagIndex) (k : BranchOffset)
deriving DecidableEq, Repr

end Sys2Proof
end

