-- ==== Sys2Proof/Decode.lean ====
section
/-!
DEFINITION. The Repertoire (spec/30_encoding.md): the opcode map of R90, the resolution of a word by first match
(R91), the operand fields (R81 to R88), and the encoder written from the same formats. Decoding is total on
16-bit words and depends on the word alone (R94); a word that matches no row is rejected as an unknown code (R96).
-/
namespace Sys2Proof

/-- How an entry of the Repertoire recognises a word (R91): a mask and a required code, or, for Break, a custom
predicate that compares the whole word (R92). -/
inductive Matcher where
  | masked (mask code : Word)
  | exact (code : Word)
deriving DecidableEq, Repr

/-- The match itself: `word AND mask == code`, or equality with the literal (R91). -/
def Matcher.holds : Matcher → Word → Bool
  | .masked mask code, w => w &&& mask == code
  | .exact code, w => w == code

/-- The nineteen entries of the Repertoire, by name. -/
inductive Opcode where
  | nop | add | sub | adc | and | eor | or | mov | subi | lsr | brk | lds | sts | inp | out | rjmp | ldi | brbs | brbc
deriving DecidableEq, Repr

/-- Masks and codes, the table of R90. -/
def Opcode.matcher : Opcode → Matcher
  | .nop => .masked 0xFFFF 0x0000
  | .add => .masked 0xFC00 0x0C00
  | .sub => .masked 0xFC00 0x1800
  | .adc => .masked 0xFC00 0x1C00
  | .and => .masked 0xFC00 0x2000
  | .eor => .masked 0xFC00 0x2400
  | .or => .masked 0xFC00 0x2800
  | .mov => .masked 0xFC00 0x2C00
  | .subi => .masked 0xF000 0x5000
  | .lsr => .masked 0xFE0F 0x9406
  | .brk => .exact 0x9598
  | .lds => .masked 0xF800 0xA000
  | .sts => .masked 0xF800 0xA800
  | .inp => .masked 0xF800 0xB000
  | .out => .masked 0xF800 0xB800
  | .rjmp => .masked 0xF000 0xC000
  | .ldi => .masked 0xF000 0xE000
  | .brbs => .masked 0xFC00 0xF000
  | .brbc => .masked 0xFC00 0xF400

/-- The entries in the order of the table of R90. The source gives no registration order and none can matter,
the rows being disjoint (R93). -/
def repertoire : List Opcode :=
  [.nop, .add, .sub, .adc, .and, .eor, .or, .mov, .subi, .lsr, .brk, .lds, .sts, .inp, .out, .rjmp, .ldi, .brbs, .brbc]

/-- The first entry of a list of entries that matches the word (R91). -/
def resolveIn (entries : List Opcode) (w : Word) : Option Opcode :=
  entries.find? (fun op => op.matcher.holds w)

/-- `resolve(word)` against the Repertoire (R91). -/
def resolve (w : Word) : Option Opcode := resolveIn repertoire w

/-! ### Operand fields -/

/-- `d = w[8:4]` (R81, R83, R88). -/
def fieldD5 (w : Word) : RegNum := w.extractLsb' 4 5
/-- `r = w[9] ++ w[3:0]` (R81). -/
def fieldR5 (w : Word) : RegNum := w.extractLsb' 9 1 ++ w.extractLsb' 0 4
/-- `d = 16 + w[7:4]` (R82, R84): the four bits with a 1 above them. -/
def fieldD4 (w : Word) : RegNum := 1#1 ++ w.extractLsb' 4 4
/-- `K = w[11:8] ++ w[3:0]` (R82). -/
def fieldImm (w : Word) : Byte := w.extractLsb' 8 4 ++ w.extractLsb' 0 4
/-- `k = w[8] ++ w[10] ++ w[9] ++ w[3:0]` (R84). -/
def fieldDirect (w : Word) : DirectField :=
  w.extractLsb' 8 1 ++ w.extractLsb' 10 1 ++ w.extractLsb' 9 1 ++ w.extractLsb' 0 4
/-- `A = w[10:9] ++ w[3:0]` (R88). -/
def fieldPort (w : Word) : PortNum := w.extractLsb' 9 2 ++ w.extractLsb' 0 4
/-- `w[11:0]` (R85). -/
def fieldJump (w : Word) : JumpOffset := w.extractLsb' 0 12
/-- `w[9:3]` (R86). -/
def fieldBranch (w : Word) : BranchOffset := w.extractLsb' 3 7
/-- `s = w[2:0]` (R86). -/
def fieldFlag (w : Word) : FlagIndex := w.extractLsb' 0 3

/-- The instruction an entry reads from a word it matches: each handler decodes its own operand fields (R94). -/
def Opcode.operands : Opcode → Word → Instr
  | .nop, _ => .nop
  | .add, w => .add (fieldD5 w) (fieldR5 w)
  | .sub, w => .sub (fieldD5 w) (fieldR5 w)
  | .adc, w => .adc (fieldD5 w) (fieldR5 w)
  | .and, w => .and (fieldD5 w) (fieldR5 w)
  | .eor, w => .eor (fieldD5 w) (fieldR5 w)
  | .or, w => .or (fieldD5 w) (fieldR5 w)
  | .mov, w => .mov (fieldD5 w) (fieldR5 w)
  | .subi, w => .subi (fieldD4 w) (fieldImm w)
  | .lsr, w => .lsr (fieldD5 w)
  | .brk, _ => .brk
  | .lds, w => .lds (fieldD4 w) (fieldDirect w)
  | .sts, w => .sts (fieldDirect w) (fieldD4 w)
  | .inp, w => .inp (fieldD5 w) (fieldPort w)
  | .out, w => .out (fieldPort w) (fieldD5 w)
  | .rjmp, w => .rjmp (fieldJump w)
  | .ldi, w => .ldi (fieldD4 w) (fieldImm w)
  | .brbs, w => .brbs (fieldFlag w) (fieldBranch w)
  | .brbc, w => .brbc (fieldFlag w) (fieldBranch w)

/-- What decoding a word answers: an instruction, or the rejection by name of R96. -/
inductive Decoded where
  | instr (i : Instr)
  | unknownCode (w : Word)
deriving DecidableEq, Repr

/-- Decoding, total on 16-bit words and a function of the word alone (R91, R94, R96). -/
def decode (w : Word) : Decoded :=
  match resolve w with
  | some op => .instr (op.operands w)
  | none => .unknownCode w

/-- The entry of the Repertoire an instruction belongs to. -/
def Instr.opcode : Instr → Opcode
  | .nop => .nop
  | .add _ _ => .add
  | .sub _ _ => .sub
  | .adc _ _ => .adc
  | .and _ _ => .and
  | .eor _ _ => .eor
  | .or _ _ => .or
  | .mov _ _ => .mov
  | .subi _ _ => .subi
  | .lsr _ => .lsr
  | .brk => .brk
  | .lds _ _ => .lds
  | .sts _ _ => .sts
  | .inp _ _ => .inp
  | .out _ _ => .out
  | .rjmp _ => .rjmp
  | .ldi _ _ => .ldi
  | .brbs _ _ => .brbs
  | .brbc _ _ => .brbc

/-! ### The encoder -/

/-- Format RR, `oooo oord dddd rrrr` (R81). -/
def encodeRR (o : BitVec 6) (d r : RegNum) : Word := o ++ r.extractLsb' 4 1 ++ d ++ r.extractLsb' 0 4
/-- Format RI, `oooo KKKK dddd KKKK` (R82). -/
def encodeRI (o : BitVec 4) (d : RegNum) (imm : Byte) : Word :=
  o ++ imm.extractLsb' 4 4 ++ d.extractLsb' 0 4 ++ imm.extractLsb' 0 4
/-- Format DM, `1010 okkk dddd kkkk`, the three high bits being k[5], k[4], k[6] (R84). -/
def encodeDM (o : BitVec 5) (d : RegNum) (k : DirectField) : Word :=
  o ++ k.extractLsb' 5 1 ++ k.extractLsb' 4 1 ++ k.extractLsb' 6 1 ++ d.extractLsb' 0 4 ++ k.extractLsb' 0 4
/-- Format IO, `1011 oAAd dddd AAAA` (R88). -/
def encodeIO (o : BitVec 5) (port : PortNum) (d : RegNum) : Word :=
  o ++ port.extractLsb' 4 2 ++ d ++ port.extractLsb' 0 4
/-- Format BR, `1111 0okk kkkk ksss` (R86). -/
def encodeBR (o : BitVec 6) (s : FlagIndex) (k : BranchOffset) : Word := o ++ k ++ s

/-- The word of an instruction: every instruction is exactly one 16-bit cell (R80). -/
def encode : Instr → Word
  | .nop => 0b0000000000000000
  | .add d r => encodeRR 0b000011 d r
  | .sub d r => encodeRR 0b000110 d r
  | .adc d r => encodeRR 0b000111 d r
  | .and d r => encodeRR 0b001000 d r
  | .eor d r => encodeRR 0b001001 d r
  | .or d r => encodeRR 0b001010 d r
  | .mov d r => encodeRR 0b001011 d r
  | .subi d imm => encodeRI 0b0101 d imm
  | .lsr d => 0b1001010#7 ++ d ++ 0b0110#4
  | .brk => 0b1001010110011000
  | .lds d k => encodeDM 0b10100 d k
  | .sts k d => encodeDM 0b10101 d k
  | .inp d port => encodeIO 0b10110 port d
  | .out port d => encodeIO 0b10111 port d
  | .rjmp k => 0b1100#4 ++ k
  | .ldi d imm => encodeRI 0b1110 d imm
  | .brbs s k => encodeBR 0b111100 s k
  | .brbc s k => encodeBR 0b111101 s k

/-- The 16-bit program cell whose bits are `w`, numbered as spec/opcode_table.json numbers them (bit 0 least
significant); only the row's `nbits` bits are taken, the rest are 0. -/
def tableWord (nbits w : Nat) : Word := BitVec.ofNat 16 (w % 2 ^ nbits)

/-- The instruction the decoder reads from a row's word; none where it rejects the word. -/
def decodeTableWord (nbits w : Nat) : Option Instr :=
  match decode (tableWord nbits w) with
  | .instr i => some i
  | .unknownCode _ => none

end Sys2Proof
end

