-- ==== Sys2Proof/Config.lean ====
section
/-!
DEFINITION. What is fixed for one constructed machine: the four parameters of spec/00_scope.md R6 to R8 (there
are no others, R9), and the one free value of the model. The parameters are plain data carried in State, so that
every statement holds for every choice of them.
-/
namespace Sys2Proof

/-- The construction parameters. `directAddr` is the total function of R8 from a 7-bit field value to a data
address, written out as its table so that states stay comparable. -/
structure Params where
  /-- DATA_SIZE: the number of 8-bit data cells (R6). -/
  dataSize : Nat
  /-- PROG_SIZE: the number of 16-bit program cells (R6). -/
  progSize : Nat
  /-- WINDOW_CHECK: whether Lds and Sts reject addresses outside 0x40..0xBF (R7). -/
  windowCheck : Bool
  /-- DirectAddr, entry k being the data address of field value k (R8). -/
  directAddr : Vector Nat 128
deriving DecidableEq, Repr

/-- The default DirectAddr: zero extension (43_direct_memory.md R146). -/
def Params.zeroExtendTable : Vector Nat 128 := Vector.ofFn (fun k : Fin 128 => k.val)

/-- The parameters of `State.reset`. WINDOW_CHECK and DirectAddr are the spec's defaults (R7, R146); the two
sizes are a DESIGN CHOICE (unsafe, notes/assumptions/2.md): 128 data cells, the only size the source mentions,
and program memory as large as the 16-bit pc can address (R6). -/
def Params.default : Params :=
  { dataSize := 128, progSize := 65536, windowCheck := false, directAddr := Params.zeroExtendTable }

/-- The spec's condition on the sizes: every program address fits the 16-bit pc (R6). -/
abbrev Params.wf (p : Params) : Prop := p.progSize ≤ 65536

/-- FREE VALUE (93_implementation_defined.md U9, notes/assumptions/8.md): whether an In from port 0 that faults
because its register does not exist has taken the waiting byte. Draw number n; it has no body, so nothing can be
proved of its values. -/
opaque Config.faultingInTakesByte : Nat → Bool

end Sys2Proof
end

