-- ==== Sys2Proof/Machine/State.lean ====
section
/-!
DEFINITION. The state of the SimulatorAVR core (spec/10_state.md): the machine state of R20 (data memory, program
memory, pc, flags), the engine status (R33), the trace enable (R35), the construction parameters (00_scope.md R6
to R8), and the three sequences that pass between the core and its environment: the access trace (20_memory.md
R66), the emissions and the pending port-0 input (46_io.md R177, R178). Also the reasons a step can stop, and the
state after reset (R37).
-/
namespace Sys2Proof.Machine

/-- A memory bank (20_memory.md R52) as a list of (address, value) pairs: addresses strictly rising, and no entry
equal to 0, which is what an unlisted cell reads as, every bank being zero-initialised (R37, R52). The bank's
length is a parameter of the machine, not of the list. -/
abbrev Bank (width : Nat) := List (Nat × BitVec width)

/-- Data memory: cells of 8 bits, the first 32 being R0..R31 (R22); a list of Host.Cell. -/
abbrev Memory := Bank 8

/-- Program memory: cells of 16 bits (R50). -/
abbrev ProgMemory := Bank 16

/-- The two faults that end a run (60_exceptions.md R210). -/
inductive FaultKind where
  /-- An access at or beyond the end of a bank, or outside the window when it is checked (R212). -/
  | outOfMemory
  /-- A fetched word that matches no entry of the Repertoire (R213). -/
  | unknownCode
deriving DecidableEq, Repr

/-- The engine status, the typed halt reason the host reads (10_state.md R33, 47_engine_and_host.md R196). -/
inductive Status where
  | running
  | haltedBreak
  | haltedFault (kind : FaultKind)
deriving DecidableEq, Repr

/-- The direction of a traced access (20_memory.md R66). -/
inductive Direction where
  | read
  | write
deriving DecidableEq, Repr

/-- One record of the data-memory access trace: (direction, address, value) (20_memory.md R66). -/
structure AccessRecord where
  dir : Direction
  addr : Nat
  value : Byte
deriving DecidableEq, Repr

/-- One observation `Emit(p, v)` (46_io.md R176, R178). -/
structure Emission where
  port : BitVec 6
  value : Byte
deriving DecidableEq, Repr

/-- The whole state, plain data. -/
structure State where
  /-- The construction parameters; no step changes them (70_reset_and_hazards.md R240). -/
  params : Params
  /-- DM: data memory and, in cells 0..31, the general registers (R20, R22). -/
  dm : Memory
  /-- PM: program memory (R20, R50). -/
  pm : ProgMemory
  /-- The program counter, a program cell index (R25). -/
  pc : Word
  /-- FLAGS: bit 0 carry, bit 1 zero, bit 2 negative, bits 7:3 padding (R28). -/
  flags : Byte
  /-- The engine status (R33). -/
  status : Status
  /-- The data-memory trace switch (R35). -/
  traceEnable : Bool
  /-- The access records emitted so far, oldest first (20_memory.md R66). -/
  trace : List AccessRecord
  /-- The emissions so far, oldest first (46_io.md R178). -/
  output : List Emission
  /-- The bytes the port-0 device has supplied and no In has taken, oldest first (R36, 46_io.md R177). -/
  input : List Byte
  /-- The MODEL's own field: the number of the next draw of the free value Config.faultingInTakesByte. -/
  freeIndex : Nat
deriving DecidableEq, Repr

/-- Why a step cannot be taken. These are not the hardware's faults, which are values of `status`. -/
inductive Fault where
  /-- Raised by `step` alone, in a state halted by Break: the engine takes no step (47_engine_and_host.md R185,
  R189). Safe: the hardware does nothing there either. -/
  | engineHaltedByBreak
  /-- Raised by `step` alone, in a state halted by a fault: the engine takes no step (R185, R189). Safe: the
  hardware does nothing there either. -/
  | engineHaltedByFault (kind : FaultKind)
deriving DecidableEq, Repr

/-- Why the model gives an instruction no meaning. -/
inductive Refusal where
  /-- Raised by an arm of `exec` for an instruction not modelled yet (no arm does). Safe: nothing can be proved of
  such an instruction. -/
  | notModelled (mnemonic : String)
deriving DecidableEq, Repr

/-- Construction with given parameters: zero-initialised banks, pc = 0, flags = 0, Running, trace off (R37,
70_reset_and_hazards.md R240). The environment's sequences start empty (notes/assumptions/7.md, 9.md, 10.md) and
the draw counter at 0 (8.md). -/
def State.construct (p : Params) : State :=
  { params := p, dm := [], pm := [], pc := 0, flags := 0, status := .running, traceEnable := false,
    trace := [], output := [], input := [], freeIndex := 0 }

/-- The machine right after reset (R37), constructed with the default parameters. -/
def State.reset : State := State.construct Params.default

end Sys2Proof.Machine
end

