-- ==== Sys2Proof/Machine/Ops.lean ====
section
/-!
DEFINITION. The named operations over the state: the memory bank (spec/20_memory.md R52), bounds-checked and
traced data access (R53, R66), the fetch (47_engine_and_host.md R186), halting (60_exceptions.md R210 to R219),
the pc (10_state.md R26, R27), and the events of port input and output (46_io.md R177, R178).

Accesses are written with a continuation: each does its access and hands the value and the state on, or ends the
instruction in the OutOfMemory halt. An instruction's single data write is its last access, so a halt finds the
machine state unwritten (60_exceptions.md R214); the trace records of the accesses made before it stay (R214).
-/
namespace Sys2Proof.Machine

/-- What an instruction answers. -/
abbrev Result := Host.Outcome State Fault Refusal

/-! ### Banks -/

/-- The value of a cell: the listed value, or the reset value 0 (R52, R64 (b)). -/
def Bank.read {n : Nat} : Bank n → Nat → BitVec n
  | [], _ => 0
  | c :: m, a => if a = c.1 then c.2 else Bank.read m a

/-- Take a cell off the list: it then reads as 0. -/
def Bank.dropCell {n : Nat} (m : Bank n) (a : Nat) : Bank n := m.filter fun c => c.1 != a

/-- List a cell before the first higher address. -/
def Bank.insertCell {n : Nat} : Bank n → Nat → BitVec n → Bank n
  | [], a, v => [(a, v)]
  | c :: m, a, v => if a < c.1 then (a, v) :: c :: m else c :: Bank.insertCell m a v

/-- Replace one cell, keeping addresses rising and zero cells unlisted (R52). -/
def Bank.write {n : Nat} (m : Bank n) (a : Nat) (v : BitVec n) : Bank n :=
  if v = 0 then m.dropCell a else (m.dropCell a).insertCell a v

/-- The canonical form: addresses strictly rising, no entry equal to what an unlisted cell reads as. -/
abbrev Bank.wf {n : Nat} (m : Bank n) : Prop :=
  m.Pairwise (fun x y => x.1 < y.1) ∧ ∀ c ∈ m, c.2 ≠ 0

/-- Every listed cell lies inside a bank of the given length (R52: addresses 0..N-1). -/
abbrev Bank.within {n : Nat} (m : Bank n) (size : Nat) : Prop := ∀ c ∈ m, c.1 < size

/-- The canonical form of data memory. -/
abbrev Memory.wf (m : Memory) : Prop := Bank.wf m

/-- The value of data cell `a`. -/
def State.cell (s : State) (a : Nat) : Byte := Bank.read s.dm a

/-- The value of general register `i`, which is data cell `i` (10_state.md R22). -/
def State.reg (s : State) (i : RegNum) : Byte := s.cell i.toNat

/-! ### Halts -/

/-- Take one of the three halts: `status` takes the halt value and nothing else changes; nothing is saved, no mode
changes, control goes nowhere (60_exceptions.md R210, R214, R218). There is no return (R219). -/
def State.halt (s : State) (why : Status) : State := { s with status := why }

/-- `raise OutOfMemory`: the instruction ends with only `status` written (R212, R214). -/
def raiseOutOfMemory (s : State) : Result := .next (s.halt (.haltedFault .outOfMemory))

/-! ### Data access -/

/-- Emit a trace record if the trace is on (20_memory.md R66). -/
def State.traced (s : State) (r : AccessRecord) : State :=
  { s with trace := if s.traceEnable then s.trace ++ [r] else s.trace }

/-- `MemRead(a, 1)`: bounds check, trace record, value (R52, R53, R66). -/
def readCell (a : Nat) (s : State) (k : Byte → State → Result) : Result :=
  if a < s.params.dataSize then k (s.cell a) (s.traced ⟨.read, a, s.cell a⟩) else raiseOutOfMemory s

/-- `MemWrite(a, 1, v)`: bounds check, write, trace record (R52, R53, R66). -/
def writeCell (a : Nat) (v : Byte) (s : State) (k : State → Result) : Result :=
  if a < s.params.dataSize then k ({ s with dm := Bank.write s.dm a v }.traced ⟨.write, a, v⟩)
  else raiseOutOfMemory s

/-! ### Fetch and pc -/

/-- The fetch: `ProgRead(pc)`, none when the pc is outside program memory (20_memory.md R54,
47_engine_and_host.md R186). It is not traced (R66). -/
def fetch (s : State) : Option Word :=
  if s.pc.toNat < s.params.progSize then some (Bank.read s.pm s.pc.toNat) else none

/-- `pc <- (pc + 1) mod 65536` (10_state.md R27). -/
def State.advance (s : State) : State := { s with pc := s.pc + 1 }

/-- `pc <- (pc + k + 1) mod 65536`, the offset already sign-extended (44_control_transfer.md R155). -/
def State.jump (s : State) (k : Word) : State := { s with pc := s.pc + k + 1 }

/-! ### Port events -/

/-- `Emit(p, v)` (46_io.md R178). -/
def State.emit (s : State) (port : PortNum) (v : Byte) : State :=
  { s with output := s.output ++ [⟨port, v⟩] }

/-- The pending input after an In from port 0 that faults on its register: taken or not taken, a free value
(93_implementation_defined.md U9, notes/assumptions/8.md). -/
def State.drawFaultingInput (s : State) (rest : List Byte) : State :=
  { s with
    input := if Config.faultingInTakesByte s.freeIndex then rest else s.input
    freeIndex := s.freeIndex + 1 }

end Sys2Proof.Machine
end

