-- ==== Sys2Proof/Machine/Flags.lean ====
section
/-!
DEFINITION. The flag rules (spec/10_state.md R28 to R31) and the results they go with. Arithmetic is computed
exactly as an integer, then wrapped modulo 256; carry and borrow compare the raw value with the 8-bit range
(R29). The legacy thresholds are not reproduced (R31).
-/
namespace Sys2Proof.Machine

/-- Which flag stands at which bit of FLAGS (R28). -/
abbrev carryBit : Nat := 0
abbrev zeroBit : Nat := 1
abbrev negativeBit : Nat := 2

/-- Bit `i` of FLAGS. -/
def flagAt (f : Byte) (i : Nat) : Bool := f.getLsbD i

/-- FLAGS with C, Z and N written and the padding bits 7:3 kept (R28). -/
def withCZN (f : Byte) (c z n : Bool) : Byte :=
  f.extractLsb' 3 5 ++ BitVec.ofBool n ++ BitVec.ofBool z ++ BitVec.ofBool c

/-- Zero: set iff the full 8-bit result equals 0 (R29). -/
def zeroFlag (res : Byte) : Bool := decide (res = 0)

/-- Negative: set iff bit 7 of the result is 1 (R29). -/
def negativeFlag (res : Byte) : Bool := res.getLsbD 7

/-- FLAGS after an instruction that writes C, Z and N (R30). -/
def flagsCZN (f : Byte) (c : Bool) (res : Byte) : Byte := withCZN f c (zeroFlag res) (negativeFlag res)

/-- FLAGS after an instruction that writes Z and N and leaves C unchanged (R30). -/
def flagsZN (f : Byte) (res : Byte) : Byte := flagsCZN f (flagAt f carryBit) res

/-- The padding bits 7:3 of FLAGS, always 0 (R28). -/
def flagPadding (f : Byte) : BitVec 5 := f.extractLsb' 3 5

/-- An 8-bit result and the FLAGS that go with it. -/
structure AluResult where
  value : Byte
  flags : Byte
deriving DecidableEq, Repr

/-- A raw sum wrapped modulo 256, carry when it exceeds 255 (R29). -/
def sumResult (f : Byte) (raw : Nat) : AluResult :=
  let res : Byte := BitVec.ofNat 8 raw
  ⟨res, flagsCZN f (decide (255 < raw)) res⟩

/-- A raw difference wrapped modulo 256, borrow when it is negative (R29). -/
def differenceResult (f : Byte) (raw : Int) : AluResult :=
  let res : Byte := BitVec.ofInt 8 raw
  ⟨res, flagsCZN f (decide (raw < 0)) res⟩

/-- A bitwise result: Z and N from it, C unchanged (R30). -/
def logicResult (f res : Byte) : AluResult := ⟨res, flagsZN f res⟩

/-- `a + b` (40_alu_register.md R112). -/
def aluAdd (f a b : Byte) : AluResult := sumResult f (a.toNat + b.toNat)

/-- `a + b + C`, with the carry before the instruction (R113). -/
def aluAdc (f a b : Byte) : AluResult := sumResult f (a.toNat + b.toNat + (flagAt f carryBit).toNat)

/-- `a - b` (R114, 41_alu_immediate.md R131). -/
def aluSub (f a b : Byte) : AluResult := differenceResult f ((a.toNat : Int) - (b.toNat : Int))

/-- `a AND b` (R115). -/
def aluAnd (f a b : Byte) : AluResult := logicResult f (a &&& b)

/-- `a OR b` (R116). -/
def aluOr (f a b : Byte) : AluResult := logicResult f (a ||| b)

/-- `a XOR b` (R117). -/
def aluEor (f a b : Byte) : AluResult := logicResult f (a ^^^ b)

/-- `0 ++ a[7:1]`, the bit shifted out into C (42_shift.md R141). -/
def aluLsr (f a : Byte) : AluResult :=
  let res : Byte := 0#1 ++ a.extractLsb' 1 7
  ⟨res, flagsCZN f (a.getLsbD 0) res⟩

/-- FLAGS[s], the bit Brbs and Brbc select: 0 is C, 1 is Z, 2 is N, 3..7 padding (R28). -/
def selectedFlag (f : Byte) (s : FlagIndex) : Bool := flagAt f s.toNat

end Sys2Proof.Machine
end

