-- ==== Sys2Proof/Machine/Operands.lean ====
section
/-!
DEFINITION. The operand forms: registers as data cells (spec/10_state.md R22), the shapes "two registers",
"register and immediate", "one register" in the access order of 40_alu_register.md R111, the direct data address
with its optional window check (43_direct_memory.md R146, R147), the branch offsets (44_control_transfer.md R155)
and the ports with an output device (46_io.md R176).
-/
namespace Sys2Proof.Machine

/-- Read of a general register: it is a data-memory read of its cell (R22). -/
def readReg (i : RegNum) (s : State) (k : Byte → State → Result) : Result := readCell i.toNat s k

/-- Write of a general register: it is a data-memory write of its cell (R22). -/
def writeReg (i : RegNum) (v : Byte) (s : State) (k : State → Result) : Result := writeCell i.toNat v s k

/-- End an instruction that falls through: the handler's own `pc <- (pc + 1) mod 65536` (R26). -/
def finish (s : State) : Result := .next s.advance

/-- Write a result and its flags, then fall through. -/
def writeAlu (d : RegNum) (r : AluResult) (s : State) : Result :=
  writeReg d r.value s fun s => finish { s with flags := r.flags }

/-- Form RR: read `x[d]`, read `x[r]`, write `x[d]` and the flags (R110, R111). -/
def combineRegs (op : Byte → Byte → Byte → AluResult) (d r : RegNum) (s : State) : Result :=
  readReg d s fun a s => readReg r s fun b s => writeAlu d (op s.flags a b) s

/-- Form RI with a read: read `x[d]`, write `x[d]` and the flags (41_alu_immediate.md R131). -/
def combineImm (op : Byte → Byte → Byte → AluResult) (d : RegNum) (imm : Byte) (s : State) : Result :=
  readReg d s fun a s => writeAlu d (op s.flags a imm) s

/-- Form R1: read `x[d]`, write `x[d]` and the flags (42_shift.md R141). -/
def modifyReg (op : Byte → Byte → AluResult) (d : RegNum) (s : State) : Result :=
  readReg d s fun a s => writeAlu d (op s.flags a) s

/-- `ea = DirectAddr(k)` (43_direct_memory.md R146). -/
def effectiveAddress (p : Params) (k : DirectField) : Nat := p.directAddr[k.toNat]'k.isLt

/-- The window check rejects this address (R147). -/
def outsideWindow (p : Params) (ea : Nat) : Bool := p.windowCheck && (decide (ea < 0x40) || decide (0xBF < ea))

/-- The direct operand: the effective address, the window check coming before any access (R147). -/
def withDirect (k : DirectField) (s : State) (cont : Nat → Result) : Result :=
  if outsideWindow s.params (effectiveAddress s.params k) then raiseOutOfMemory s
  else cont (effectiveAddress s.params k)

/-- The sign-extended offset of Rjmp (30_encoding.md R85). -/
def jumpOffset (k : JumpOffset) : Word := k.signExtend 16

/-- The sign-extended offset of Brbs and Brbc (30_encoding.md R86). -/
def branchOffset (k : BranchOffset) : Word := k.signExtend 16

/-- The conditional branch: the target when taken, the next cell when not (44_control_transfer.md R155). -/
def branchIf (taken : Bool) (k : BranchOffset) (s : State) : Result :=
  if taken then .next (s.jump (branchOffset k)) else finish s

/-- Ports 0, 1 and 2 have an output device (46_io.md R176). -/
def hasOutputDevice (port : PortNum) : Bool := port == 0 || port == 1 || port == 2

/-- Port 0 has the input device (46_io.md R176). -/
def hasInputDevice (port : PortNum) : Bool := port == 0

end Sys2Proof.Machine
end

