-- ==== Sys2Proof/Machine/AluImmediate.lean ====
section
/-!
DEFINITION. The immediate ALU instructions (spec/41_alu_immediate.md): Subi, Ldi.
-/
namespace Sys2Proof.Machine

/-- Subi (R131). -/
def execSubi (d : RegNum) (imm : Byte) (s : State) : Result := combineImm aluSub d imm s

/-- Ldi: the old value is not read; no flag (R132). -/
def execLdi (d : RegNum) (imm : Byte) (s : State) : Result := writeReg d imm s finish

end Sys2Proof.Machine
end

