-- ==== Sys2Proof/Machine/AluRegister.lean ====
section
/-!
DEFINITION. The register ALU instructions (spec/40_alu_register.md): Add, Adc, Sub, And, Or, Eor, Mov. The result
lands in the `d` register for all seven (R110).
-/
namespace Sys2Proof.Machine

/-- Add (R112). -/
def execAdd (d r : RegNum) (s : State) : Result := combineRegs aluAdd d r s

/-- Adc (R113). -/
def execAdc (d r : RegNum) (s : State) : Result := combineRegs aluAdc d r s

/-- Sub (R114). -/
def execSub (d r : RegNum) (s : State) : Result := combineRegs aluSub d r s

/-- And (R115). -/
def execAnd (d r : RegNum) (s : State) : Result := combineRegs aluAnd d r s

/-- Or (R116). -/
def execOr (d r : RegNum) (s : State) : Result := combineRegs aluOr d r s

/-- Eor (R117). -/
def execEor (d r : RegNum) (s : State) : Result := combineRegs aluEor d r s

/-- Mov: read `x[r]`, write `x[d]`, which is not read; no flag (R118). -/
def execMov (d r : RegNum) (s : State) : Result :=
  readReg r s fun v s => writeReg d v s finish

end Sys2Proof.Machine
end

