-- ==== Sys2Proof/Machine/ControlTransfer.lean ====
section
/-!
DEFINITION. Control transfer (spec/44_control_transfer.md): Rjmp, Brbs, Brbc. A target outside program memory is
not detected here; the next fetch faults (R159).
-/
namespace Sys2Proof.Machine

/-- Rjmp (R156). -/
def execRjmp (k : JumpOffset) (s : State) : Result := .next (s.jump (jumpOffset k))

/-- Brbs: branch if FLAGS[s] is 1 (R157). -/
def execBrbs (i : FlagIndex) (k : BranchOffset) (s : State) : Result := branchIf (selectedFlag s.flags i) k s

/-- Brbc: branch if FLAGS[s] is 0 (R158). -/
def execBrbc (i : FlagIndex) (k : BranchOffset) (s : State) : Result := branchIf (!selectedFlag s.flags i) k s

end Sys2Proof.Machine
end

