-- ==== Sys2Proof/Machine/DirectMemory.lean ====
section
/-!
DEFINITION. The direct-addressed load and store (spec/43_direct_memory.md): Lds, Sts. Cells 0..31 are the
registers, so an address below 32 reaches a register (R149).
-/
namespace Sys2Proof.Machine

/-- Lds: window check, `MemRead(ea)`, write `x[d]` (R148). -/
def execLds (d : RegNum) (k : DirectField) (s : State) : Result :=
  withDirect k s fun ea => readCell ea s fun v s => writeReg d v s finish

/-- Sts: window check, read `x[d]`, `MemWrite(ea)` (R150). -/
def execSts (k : DirectField) (d : RegNum) (s : State) : Result :=
  withDirect k s fun ea => readReg d s fun v s => writeCell ea v s finish

end Sys2Proof.Machine
end

