-- ==== Sys2Proof/Machine/NopBreak.lean ====
section
/-!
DEFINITION. No-operation and halt (spec/45_nop_break.md): Nop, Break.
-/
namespace Sys2Proof.Machine

/-- Nop: only the pc's +1 (R171). -/
def execNop (s : State) : Result := finish s

/-- Break: `status <- HaltedBreak`, the pc stays at the Break (R172). -/
def execBrk (s : State) : Result := .next (s.halt .haltedBreak)

end Sys2Proof.Machine
end

