-- ==== Sys2Proof/Machine/PortIo.lean ====
section
/-!
DEFINITION. Port input and output (spec/46_io.md): In, Out.
-/
namespace Sys2Proof.Machine

/-- In (R177). From port 0: with nothing supplied the engine is held, no state changes and `status` stays Running
(the step answers the same state, notes/assumptions/6.md); otherwise the oldest pending byte is taken and written
to `x[d]`. When `x[d]` does not exist the instruction faults, and whether the byte was taken is a free value
(93_implementation_defined.md U9). From any other port: only the pc's +1. -/
def execInp (d : RegNum) (port : PortNum) (s : State) : Result :=
  if hasInputDevice port then
    match s.input with
    | [] => .next s
    | v :: rest =>
      if d.toNat < s.params.dataSize then writeReg d v { s with input := rest } finish
      else raiseOutOfMemory (s.drawFaultingInput rest)
  else finish s

/-- Out (R178). To port 0, 1 or 2: read `x[d]` and emit it. To any other port: only the pc's +1. -/
def execOut (port : PortNum) (d : RegNum) (s : State) : Result :=
  if hasOutputDevice port then readReg d s fun v s => finish (s.emit port v)
  else finish s

end Sys2Proof.Machine
end

