-- ==== Sys2Proof/Machine/Shift.lean ====
section
/-!
DEFINITION. The single-register shift (spec/42_shift.md): Lsr, a logical shift right by one, never a rotate (R140).
-/
namespace Sys2Proof.Machine

/-- Lsr (R141). -/
def execLsr (d : RegNum) (s : State) : Result := modifyReg aluLsr d s

end Sys2Proof.Machine
end

