-- ==== Sys2Proof/Machine/Dispatch.lean ====
section
/-!
DEFINITION. The execute part of a step (spec/47_engine_and_host.md R188): one arm per instruction, in the order of
the opcode table.
-/
namespace Sys2Proof.Machine

def exec (i : Instr) (s : State) : Host.Outcome State Fault Refusal :=
  match i with
  | .nop => Sys2Proof.Machine.execNop s
  | .add d r => Sys2Proof.Machine.execAdd d r s
  | .sub d r => Sys2Proof.Machine.execSub d r s
  | .adc d r => Sys2Proof.Machine.execAdc d r s
  | .and d r => Sys2Proof.Machine.execAnd d r s
  | .eor d r => Sys2Proof.Machine.execEor d r s
  | .or d r => Sys2Proof.Machine.execOr d r s
  | .mov d r => Sys2Proof.Machine.execMov d r s
  | .subi d imm => Sys2Proof.Machine.execSubi d imm s
  | .lsr d => Sys2Proof.Machine.execLsr d s
  | .brk => Sys2Proof.Machine.execBrk s
  | .lds d k => Sys2Proof.Machine.execLds d k s
  | .sts k d => Sys2Proof.Machine.execSts k d s
  | .inp d port => Sys2Proof.Machine.execInp d port s
  | .out port d => Sys2Proof.Machine.execOut port d s
  | .rjmp k => Sys2Proof.Machine.execRjmp k s
  | .ldi d imm => Sys2Proof.Machine.execLdi d imm s
  | .brbs f k => Sys2Proof.Machine.execBrbs f k s
  | .brbc f k => Sys2Proof.Machine.execBrbc f k s

end Sys2Proof.Machine
end

