-- ==== Sys2Proof/Machine/Step.lean ====
section
/-!
DEFINITION. One step of the engine (spec/47_engine_and_host.md R186 to R189): fetch, resolve, execute. The order of
events is the fetch bound, then the resolve, then the instruction (60_exceptions.md R217).
-/
namespace Sys2Proof.Machine

/-- Fetch, resolve, execute, `status` being Running (R186, R187, R188). -/
def runningStep (s : State) : Host.Outcome State Fault Refusal :=
  match fetch s with
  | none => raiseOutOfMemory s
  | some w =>
    match decode w with
    | .unknownCode _ => .next (s.halt (.haltedFault .unknownCode))
    | .instr i => exec i s

/-- One step (R189). It requires `status = Running`; from a halt the engine takes no step, which the step answers as
a fault naming the halt (notes/assumptions/5.md). -/
def step (s : State) : Host.Outcome State Fault Refusal :=
  match s.status with
  | .running => runningStep s
  | .haltedBreak => .fault .engineHaltedByBreak
  | .haltedFault kind => .fault (.engineHaltedByFault kind)

/-- The state with an instruction word placed where the next step fetches: the program cell at the pc. It stands
for the host's installing of a program (notes/assumptions/14.md); the machine is Running, and program memory reaches
at least to the pc. -/
def State.withFetchWord (s : State) (nbits w : Nat) : State :=
  { s with
    params := { s.params with progSize := max s.params.progSize (s.pc.toNat + 1) }
    pm := Bank.write s.pm s.pc.toNat (tableWord nbits w)
    status := .running }

end Sys2Proof.Machine
end

