-- ==== Sys2Proof/Machine/HostInterface.lean ====
section
/-!
DEFINITION. What the outside can do (spec/47_engine_and_host.md section 3): reset, install a program, toggle the
trace, read the views, run until a halt, and, for the port-0 device, supply a byte (46_io.md R177). The host acts
before a run or after a halt, never during one (R198, notes/assumptions/13.md).
-/
namespace Sys2Proof.Machine

/-- Reset: every piece of state takes its construction-time value, the parameters are kept (47 R193,
70_reset_and_hazards.md R241). What the device has supplied and not been asked for is the environment's and stays,
as does the draw counter (notes/assumptions/7.md, 8.md); the sequences of the next run start empty (9.md, 10.md). -/
def hostReset (s : State) : State :=
  { State.construct s.params with input := s.input, freeIndex := s.freeIndex }

/-- What install reports to the host (R192). -/
inductive InstallReport where
  | done
  | outOfMemory
deriving DecidableEq, Repr

/-- Write words from cell `i` on, stopping at the first out-of-range write (R192). -/
def installFrom (size : Nat) : Nat → List Word → ProgMemory → ProgMemory × InstallReport
  | _, [], m => (m, .done)
  | i, w :: ws, m => if i < size then installFrom size (i + 1) ws (Bank.write m i w) else (m, .outOfMemory)

/-- `install_program(words)`: program memory from cell 0; nothing else is touched. Too long a program writes what
fits and reports OutOfMemory (R192). -/
def installProgram (words : List Word) (s : State) : State × InstallReport :=
  let r := installFrom s.params.progSize 0 words s.pm
  ({ s with pm := r.1 }, r.2)

/-- `set_trace(b)` (R197). -/
def setTrace (b : Bool) (s : State) : State := { s with traceEnable := b }

/-- The port-0 device supplies one byte (46_io.md R177). -/
def supplyInput (v : Byte) (s : State) : State := { s with input := s.input ++ [v] }

/-- The halt reason the host reads (R196): none while Running. -/
def haltReason (s : State) : Option Status :=
  match s.status with
  | .running => none
  | .haltedBreak => some .haltedBreak
  | .haltedFault kind => some (.haltedFault kind)

/-- `n` steps of the engine, stopping where no step can be taken (R190). -/
def runSteps : Nat → State → Result
  | 0, s => .next s
  | n + 1, s =>
    match step s with
    | .next t => runSteps n t
    | .fault r => .fault r
    | .refused r => .refused r

/-- Run: the repetition of the step until a halt, for at most `fuel` steps; none if no halt is reached in them
(R190, R191). -/
def runToHalt : Nat → State → Option State
  | 0, s => if s.status = .running then none else some s
  | fuel + 1, s =>
    if s.status = .running then
      match step s with
      | .next t => runToHalt fuel t
      | .fault _ => none
      | .refused _ => none
    else some s

/-! ### Views: they read and never write, and emit no trace record (R199, notes/assumptions/11.md) -/

/-- The values of `n` cells from `a` on (R199). DESIGN CHOICE (safe, notes/assumptions/19.md): none for a range that
leaves a bank of the given length, for which the spec gives no view. -/
def viewBank {w : Nat} (m : Bank w) (size a n : Nat) : Option (List (BitVec w)) :=
  if a + n ≤ size then some ((List.range n).map fun j => Bank.read m (a + j)) else none

/-- The register view `x[0..31]`. -/
def viewRegisters (s : State) : Option (List Byte) := viewBank s.dm s.params.dataSize 0 32

/-- The data-memory view of `n` cells from `a`. -/
def viewData (s : State) (a n : Nat) : Option (List Byte) := viewBank s.dm s.params.dataSize a n

/-- The program-memory view of `n` cells from `a`. -/
def viewProgram (s : State) (a n : Nat) : Option (List Word) := viewBank s.pm s.params.progSize a n

/-- A register pair as one 16-bit value, `hi` the high byte (10_state.md R24). DESIGN CHOICE (safe,
notes/assumptions/19.md): none where DATA_SIZE < 32 leaves a register of the pair out, for which the spec gives no
view. -/
def viewPair (hi lo : RegNum) (s : State) : Option Word :=
  if hi.toNat < s.params.dataSize ∧ lo.toNat < s.params.dataSize then some (s.reg hi ++ s.reg lo) else none

/-- `X = x[27] ++ x[26]` (R24). -/
def pairX (s : State) : Option Word := viewPair 27 26 s

/-- `Y = x[29] ++ x[28]` (R24). -/
def pairY (s : State) : Option Word := viewPair 29 28 s

/-- `Z = x[31] ++ x[30]` (R24). -/
def pairZ (s : State) : Option Word := viewPair 31 30 s

end Sys2Proof.Machine
end

