-- ==== Sys2Proof/WellFormed.lean ====
section
/-!
DEFINITION. Which instruction terms have an encoding (spec/10_state.md R23): a 4-bit register field has 16 added,
so Subi, Ldi, Lds and Sts reach R16..R31 only. Every other operand value is legal (30_encoding.md R94).
-/
namespace Sys2Proof

/-- R16..R31, the registers a 4-bit register field can name (R23). -/
abbrev RegNum.isUpper (d : RegNum) : Bool := decide (16 ≤ d.toNat)

/-- The instruction has an encoding. -/
def Instr.wf : Instr → Bool
  | .subi d _ => d.isUpper
  | .ldi d _ => d.isUpper
  | .lds d _ => d.isUpper
  | .sts _ d => d.isUpper
  | .nop => true
  | .add _ _ => true
  | .sub _ _ => true
  | .adc _ _ => true
  | .and _ _ => true
  | .eor _ _ => true
  | .or _ _ => true
  | .mov _ _ => true
  | .lsr _ => true
  | .brk => true
  | .inp _ _ => true
  | .out _ _ => true
  | .rjmp _ => true
  | .brbs _ _ => true
  | .brbc _ _ => true

end Sys2Proof
end

