-- ==== Sys2Proof/Safety.lean ====
section
/-!
DEFINITION. What counts as a sound state and a safe run, and the words the claims are written in: the frames, the
shapes of the instruction rules of spec/40 to 46, the unknown words of 30_encoding.md R96, and the cells an
instruction touches. Raw results are stated here on natural numbers and integers, as the rules state them, not
through the model's own computations.
-/
namespace Sys2Proof.Machine

/-! ### Sound and safe states -/

/-- The invariant of the machine: the two banks are in canonical form and list only cells that exist
(20_memory.md R52), the padding bits of FLAGS are 0 (10_state.md R28), emissions came from ports 0, 1 and 2 only
(46_io.md R176), and trace records tell of cells that exist, a faulting access emitting none (20_memory.md R66). -/
structure Inv (s : State) : Prop where
  dmCanonical : Memory.wf s.dm
  dmWithin : Bank.within s.dm s.params.dataSize
  pmCanonical : Bank.wf s.pm
  pmWithin : Bank.within s.pm s.params.progSize
  paddingZero : flagPadding s.flags = 0
  emittedFromDevices : ∀ e ∈ s.output, e.port.toNat < 3
  tracedWithin : ∀ r ∈ s.trace, r.addr < s.params.dataSize

/-- The halt of a fault, as against the clean halt of Break (60_exceptions.md R210). -/
def Status.isFault : Status → Bool
  | .running => false
  | .haltedBreak => false
  | .haltedFault _ => true

/-- A safe state: not halted by a fault. -/
def State.safe (s : State) : Bool := !s.status.isFault

/-! ### Frames -/

/-- Two states agree on everything outside data memory, FLAGS, pc and the trace. -/
structure SameElsewhere (s t : State) : Prop where
  params : t.params = s.params
  pm : t.pm = s.pm
  status : t.status = s.status
  traceEnable : t.traceEnable = s.traceEnable
  output : t.output = s.output
  input : t.input = s.input
  freeIndex : t.freeIndex = s.freeIndex

/-- Every data cell, and so every register, other than cell `a` reads as before. -/
def OnlyCellChanged (s t : State) (a : Nat) : Prop := ∀ b, b ≠ a → t.cell b = s.cell b

/-- The carry, zero and negative flags of `t` are these, and the padding bits are those of `s` (10_state.md R28). -/
def FlagsWritten (s t : State) (c z n : Bool) : Prop :=
  flagAt t.flags 0 = c ∧ flagAt t.flags 1 = z ∧ flagAt t.flags 2 = n ∧ flagPadding t.flags = flagPadding s.flags

/-- `pc <- (pc + 1) mod 65536` (10_state.md R27). -/
def FallsThrough (s t : State) : Prop := t.pc.toNat = (s.pc.toNat + 1) % 65536

/-- `s` with these records appended to the trace, when the trace is on (20_memory.md R66). -/
def State.withRecords (s : State) (records : List AccessRecord) : State :=
  { s with trace := if s.traceEnable then s.trace ++ records else s.trace }

/-- The trace of `t` is that of `s` with these records appended, when the trace is on (20_memory.md R66). -/
def TraceGrowsBy (s t : State) (records : List AccessRecord) : Prop := t.trace = (s.withRecords records).trace

/-- `s` halted by OutOfMemory with nothing else changed, except that the records of the accesses made before the
fault stay in the trace (60_exceptions.md R214). -/
def State.afterOutOfMemory (s : State) (records : List AccessRecord) : State :=
  { s.withRecords records with status := .haltedFault .outOfMemory }

/-- A register or memory cell exists in this machine (20_memory.md R53). -/
abbrev State.hasCell (s : State) (a : Nat) : Prop := a < s.params.dataSize

/-- The window check is on and the address lies outside 0x40..0xBF (43_direct_memory.md R147). -/
def windowRejects (p : Params) (ea : Nat) : Prop := p.windowCheck = true ∧ (ea < 0x40 ∨ 0xBF < ea)

/-! ### Decoding -/

/-- Every word the mask and code select decodes to the instruction with these operand fields (30_encoding.md R90). -/
def DecodesAs (mask code : Word) (instr : Word → Instr) : Prop :=
  ∀ w : Word, w &&& mask = code → decode w = .instr (instr w)

/-- Format RR: `d = w[8:4]`, `r = w[9] ++ w[3:0]` (30_encoding.md R81). -/
def formatRR (mk : RegNum → RegNum → Instr) (w : Word) : Instr :=
  mk (w.extractLsb' 4 5) (w.extractLsb' 9 1 ++ w.extractLsb' 0 4)

/-- Format RI: `d = 16 + w[7:4]`, `K = w[11:8] ++ w[3:0]` (30_encoding.md R82). -/
def formatRI (mk : RegNum → Byte → Instr) (w : Word) : Instr :=
  mk (16 + (w.extractLsb' 4 4).setWidth 5) (w.extractLsb' 8 4 ++ w.extractLsb' 0 4)

/-- Format DM: `d = 16 + w[7:4]`, `k = w[8] ++ w[10] ++ w[9] ++ w[3:0]` (30_encoding.md R84). -/
def formatDM (mk : RegNum → DirectField → Instr) (w : Word) : Instr :=
  mk (16 + (w.extractLsb' 4 4).setWidth 5)
    (w.extractLsb' 8 1 ++ w.extractLsb' 10 1 ++ w.extractLsb' 9 1 ++ w.extractLsb' 0 4)

/-- Format IO: `d = w[8:4]`, `A = w[10:9] ++ w[3:0]` (30_encoding.md R88). -/
def formatIO (mk : RegNum → PortNum → Instr) (w : Word) : Instr :=
  mk (w.extractLsb' 4 5) (w.extractLsb' 9 2 ++ w.extractLsb' 0 4)

/-- Format BR: `s = w[2:0]`, `k = w[9:3]` (30_encoding.md R86). -/
def formatBR (mk : FlagIndex → BranchOffset → Instr) (w : Word) : Instr :=
  mk (w.extractLsb' 0 3) (w.extractLsb' 3 7)

/-- The words that match no row, as 30_encoding.md R96 lists them. -/
def UnknownWord (w : Word) : Prop :=
  (0x0001 ≤ w.toNat ∧ w.toNat ≤ 0x0BFF) ∨ (0x1000 ≤ w.toNat ∧ w.toNat ≤ 0x17FF) ∨
  (0x3000 ≤ w.toNat ∧ w.toNat ≤ 0x4FFF) ∨ (0x6000 ≤ w.toNat ∧ w.toNat ≤ 0x93FF) ∨
  (0x9400 ≤ w.toNat ∧ w.toNat ≤ 0x95FF ∧ w &&& 0xFE0F ≠ 0x9406 ∧ w ≠ 0x9598) ∨
  (0x9600 ≤ w.toNat ∧ w.toNat ≤ 0x9FFF) ∨ (0xD000 ≤ w.toNat ∧ w.toNat ≤ 0xDFFF) ∨
  (0xF800 ≤ w.toNat ∧ w.toNat ≤ 0xFFFF)

/-! ### The shapes of the instruction rules -/

/-- An ALU instruction has written this result to register `d` and the flags that go with it, and fallen through,
leaving everything else as it was (10_state.md R29, R30; 40_alu_register.md R111). -/
structure WroteAluResult (s t : State) (d : RegNum) (result : Nat) (carry : Bool) : Prop where
  value : (t.reg d).toNat = result
  frame : OnlyCellChanged s t d.toNat
  flags : FlagsWritten s t carry (decide (result = 0)) (result.testBit 7)
  pc : FallsThrough s t
  elsewhere : SameElsewhere s t

/-- A move has written this byte to cell `a` and fallen through, leaving the flags and everything else as they
were. -/
structure MovedByte (s t : State) (a : Nat) (v : Byte) : Prop where
  value : t.cell a = v
  frame : OnlyCellChanged s t a
  flags : t.flags = s.flags
  pc : FallsThrough s t
  elsewhere : SameElsewhere s t

/-- The rule of a two-register ALU instruction, `result` and `carry` being functions of the two old operand values
and the old carry (40_alu_register.md R110, R111): where both registers exist it completes, with the accesses read
`d`, read `r`, write `d`; otherwise it halts at the first access that does not exist. -/
def TwoRegisterRule (mk : RegNum → RegNum → Instr) (result : Nat → Nat → Bool → Nat)
    (carry : Nat → Nat → Bool → Bool) : Prop :=
  ∀ (d r : RegNum) (s : State),
    (s.hasCell d.toNat → s.hasCell r.toNat →
      ∃ t, exec (mk d r) s = .next t ∧
        WroteAluResult s t d (result (s.reg d).toNat (s.reg r).toNat (flagAt s.flags 0))
          (carry (s.reg d).toNat (s.reg r).toNat (flagAt s.flags 0)) ∧
        TraceGrowsBy s t [⟨.read, d.toNat, s.reg d⟩, ⟨.read, r.toNat, s.reg r⟩, ⟨.write, d.toNat, t.reg d⟩]) ∧
    (¬ s.hasCell d.toNat → exec (mk d r) s = .next (s.afterOutOfMemory [])) ∧
    (s.hasCell d.toNat → ¬ s.hasCell r.toNat →
      exec (mk d r) s = .next (s.afterOutOfMemory [⟨.read, d.toNat, s.reg d⟩]))

/-- The rule of a one-register ALU instruction (41_alu_immediate.md R131, 42_shift.md R141): where the register
exists it completes, with the accesses read `d`, write `d`; otherwise it halts. -/
def OneRegisterRule (mk : RegNum → Instr) (result : Nat → Nat) (carry : Nat → Bool) : Prop :=
  ∀ (d : RegNum) (s : State),
    (s.hasCell d.toNat →
      ∃ t, exec (mk d) s = .next t ∧
        WroteAluResult s t d (result (s.reg d).toNat) (carry (s.reg d).toNat) ∧
        TraceGrowsBy s t [⟨.read, d.toNat, s.reg d⟩, ⟨.write, d.toNat, t.reg d⟩]) ∧
    (¬ s.hasCell d.toNat → exec (mk d) s = .next (s.afterOutOfMemory []))

/-- The rule of a conditional branch taken when FLAGS[s] has the given value (44_control_transfer.md R155): only the
pc changes, to `(pc + k + 1) mod 65536` or `(pc + 1) mod 65536`. -/
def BranchRule (mk : FlagIndex → BranchOffset → Instr) (takenWhen : Bool) : Prop :=
  ∀ (f : FlagIndex) (k : BranchOffset) (s : State),
    ∃ t, exec (mk f k) s = .next t ∧ t = { s with pc := t.pc } ∧
      (s.flags.getLsbD f.toNat = takenWhen → (t.pc.toNat : Int) = ((s.pc.toNat : Int) + k.toInt + 1) % 65536) ∧
      (s.flags.getLsbD f.toNat ≠ takenWhen → t.pc.toNat = (s.pc.toNat + 1) % 65536)

/-- A pair view shows the concatenation of the two named cells: a value that is 256 times the high one plus the low
one (10_state.md R24). -/
def PairShows (pair : Option Word) (hi lo : Byte) : Prop :=
  ∃ v, pair = some v ∧ v.toNat = 256 * hi.toNat + lo.toNat

/-- A view of `n` cells: inside the bank it gives exactly their values in order, outside it gives none
(47_engine_and_host.md R199; that it gives none outside is the model's choice, notes/assumptions/19.md). -/
def ViewShows {α : Type} (view : Option (List α)) (inside : Prop) (n : Nat) (cell : Nat → α) : Prop :=
  (inside → ∃ values, view = some values ∧ values.length = n ∧ ∀ j, j < n → values[j]? = some (cell j)) ∧
  (¬ inside → view = none)

/-! ### Classes of instructions, for the rules about the whole machine -/

/-- The instructions that write C (10_state.md R30). -/
def writesCarry : Instr → Bool
  | .add _ _ | .adc _ _ | .sub _ _ | .subi _ _ | .lsr _ => true
  | .nop | .and _ _ | .eor _ _ | .or _ _ | .mov _ _ | .brk | .lds _ _ | .sts _ _ | .inp _ _ | .out _ _ | .rjmp _
  | .ldi _ _ | .brbs _ _ | .brbc _ _ => false

/-- The instructions that write Z and N (10_state.md R30). -/
def writesZeroNegative : Instr → Bool
  | .add _ _ | .adc _ _ | .sub _ _ | .subi _ _ | .lsr _ | .and _ _ | .eor _ _ | .or _ _ => true
  | .nop | .mov _ _ | .brk | .lds _ _ | .sts _ _ | .inp _ _ | .out _ _ | .rjmp _
  | .ldi _ _ | .brbs _ _ | .brbc _ _ => false

/-- The direct-addressed instructions (43_direct_memory.md). -/
def isDirectMemory : Instr → Bool
  | .lds _ _ | .sts _ _ => true
  | .nop | .add _ _ | .adc _ _ | .sub _ _ | .subi _ _ | .lsr _ | .and _ _ | .eor _ _ | .or _ _ | .mov _ _ | .brk
  | .inp _ _ | .out _ _ | .rjmp _ | .ldi _ _ | .brbs _ _ | .brbc _ _ => false

/-- The data cells an instruction accesses in this state (20_memory.md R61). -/
def cellsTouched (s : State) : Instr → List Nat
  | .add d r | .adc d r | .sub d r | .and d r | .eor d r | .or d r | .mov d r => [d.toNat, r.toNat]
  | .subi d _ | .lsr d | .ldi d _ => [d.toNat]
  | .lds d k | .sts k d => [effectiveAddress s.params k, d.toNat]
  | .inp d port => if port.toNat = 0 ∧ s.input ≠ [] then [d.toNat] else []
  | .out port d => if port.toNat < 3 then [d.toNat] else []
  | .nop | .brk | .rjmp _ | .brbs _ _ | .brbc _ _ => []

/-- The window check rejects this instruction's address (43_direct_memory.md R147). -/
def windowRejectsInstr (p : Params) : Instr → Prop
  | .lds _ k | .sts k _ => windowRejects p (effectiveAddress p k)
  | .nop | .add _ _ | .adc _ _ | .sub _ _ | .subi _ _ | .lsr _ | .and _ _ | .eor _ _ | .or _ _ | .mov _ _ | .brk
  | .inp _ _ | .out _ _ | .rjmp _ | .ldi _ _ | .brbs _ _ | .brbc _ _ => False

/-! ### Comparing runs -/

/-- A state with the trace side channel taken away (20_memory.md R66). -/
def State.eraseTrace (s : State) : State := { s with trace := [], traceEnable := false }

/-- An outcome with the trace side channel taken away. -/
def eraseTraceOf : Result → Result
  | .next t => .next t.eraseTrace
  | .fault r => .fault r
  | .refused r => .refused r

end Sys2Proof.Machine
end

