-- ==== Sys2Proof/Certificates/Slice0/Obligations.lean ====
section
/-!
DEFINITION. The statements for the provers, in terms of the model and of Safety.lean.
-/

open Sys2Proof Sys2Proof.Machine

/-! ### Encoding and decoding -/

/-- Words of 30_encoding.md written out bit by bit, one or more for each family, decode to what they stand for. -/
def Obligations.WrittenOutWordsDecode : Prop :=
  decode 0b0000111100000001 = .instr (.add 16 17) ∧ decode 0b0000111000001111 = .instr (.add 0 31) ∧
  decode 0b1110101010000111 = .instr (.ldi 24 0xA7) ∧ decode 0b1001010100000110 = .instr (.lsr 16) ∧
  decode 0b1010000100010000 = .instr (.lds 17 0x40) ∧ decode 0b1010110101000101 = .instr (.sts 0x65 20) ∧
  decode 0b1111001111101001 = .instr (.brbs 1 (-3)) ∧ decode 0b1100111111111101 = .instr (.rjmp (-3)) ∧
  decode 0b0000000000000000 = .instr .nop ∧ decode 0b1001010110011000 = .instr .brk ∧
  decode 0b1011000100000000 = .instr (.inp 16 0) ∧ decode 0b1011111100001111 = .instr (.out 63 16)

/-- Decoding an encoded well-formed instruction gives it back, every operand at every value its encoding admits. -/
def Obligations.DecodeOfEncode : Prop :=
  ∀ i : Instr, i.wf = true → decode (encode i) = .instr i

/-- A word that decodes decodes to a well-formed instruction, which encodes to that word: no two words share an
instruction and no bit of a word is dropped (30_encoding.md R94). -/
def Obligations.EncodeOfDecode : Prop :=
  ∀ (w : Word) (i : Instr), decode w = .instr i → i.wf = true ∧ encode i = w

/-- No word matches two entries of the Repertoire, so the registration order cannot affect the result: any order of
the entries resolves every word alike (30_encoding.md R93). -/
def Obligations.RepertoireEntriesDisjointInAnyOrder : Prop :=
  (repertoire.Pairwise fun p q => ∀ w : Word, ¬ (p.matcher.holds w = true ∧ q.matcher.holds w = true)) ∧
  ∀ (entries : List Opcode) (w : Word), entries.Perm repertoire → resolveIn entries w = resolve w

/-! ### The instructions: encoding, effect, frame, exception -/

/-- Add (40_alu_register.md R112). -/
def Obligations.AddRuleWhole : Prop :=
  DecodesAs 0xFC00 0x0C00 (formatRR .add) ∧
  TwoRegisterRule .add (fun a b _ => (a + b) % 256) (fun a b _ => decide (255 < a + b))

/-- Adc adds the carry before the instruction (40_alu_register.md R113). -/
def Obligations.AdcRuleWhole : Prop :=
  DecodesAs 0xFC00 0x1C00 (formatRR .adc) ∧
  TwoRegisterRule .adc (fun a b c => (a + b + c.toNat) % 256) (fun a b c => decide (255 < a + b + c.toNat))

/-- Sub wraps modulo 256 and borrows when the raw difference is negative (40_alu_register.md R114). -/
def Obligations.SubRuleWhole : Prop :=
  DecodesAs 0xFC00 0x1800 (formatRR .sub) ∧
  TwoRegisterRule .sub (fun a b _ => (((a : Int) - b) % 256).toNat) (fun a b _ => decide ((a : Int) - b < 0))

/-- And leaves C as it was (40_alu_register.md R115). -/
def Obligations.AndRuleWhole : Prop :=
  DecodesAs 0xFC00 0x2000 (formatRR .and) ∧ TwoRegisterRule .and (fun a b _ => a &&& b) (fun _ _ c => c)

/-- Or leaves C as it was (40_alu_register.md R116). -/
def Obligations.OrRuleWhole : Prop :=
  DecodesAs 0xFC00 0x2800 (formatRR .or) ∧ TwoRegisterRule .or (fun a b _ => a ||| b) (fun _ _ c => c)

/-- Eor leaves C as it was (40_alu_register.md R117). -/
def Obligations.EorRuleWhole : Prop :=
  DecodesAs 0xFC00 0x2400 (formatRR .eor) ∧ TwoRegisterRule .eor (fun a b _ => a ^^^ b) (fun _ _ c => c)

/-- Mov copies a register, reads it only, and writes no flag (40_alu_register.md R118). -/
def Obligations.MovRuleWhole : Prop :=
  DecodesAs 0xFC00 0x2C00 (formatRR .mov) ∧
  ∀ (d r : RegNum) (s : State),
    (s.hasCell r.toNat → s.hasCell d.toNat →
      ∃ t, exec (.mov d r) s = .next t ∧ MovedByte s t d.toNat (s.reg r) ∧
        TraceGrowsBy s t [⟨.read, r.toNat, s.reg r⟩, ⟨.write, d.toNat, s.reg r⟩]) ∧
    (¬ s.hasCell r.toNat → exec (.mov d r) s = .next (s.afterOutOfMemory [])) ∧
    (s.hasCell r.toNat → ¬ s.hasCell d.toNat →
      exec (.mov d r) s = .next (s.afterOutOfMemory [⟨.read, r.toNat, s.reg r⟩]))

/-- Subi (41_alu_immediate.md R131). -/
def Obligations.SubiRuleWhole : Prop :=
  DecodesAs 0xF000 0x5000 (formatRI .subi) ∧
  ∀ imm : Byte, OneRegisterRule (fun d => .subi d imm) (fun a => (((a : Int) - imm.toNat) % 256).toNat)
    (fun a => decide ((a : Int) - imm.toNat < 0))

/-- Ldi writes the immediate, reads nothing and writes no flag (41_alu_immediate.md R132). -/
def Obligations.LdiRuleWhole : Prop :=
  DecodesAs 0xF000 0xE000 (formatRI .ldi) ∧
  ∀ (d : RegNum) (imm : Byte) (s : State),
    (s.hasCell d.toNat →
      ∃ t, exec (.ldi d imm) s = .next t ∧ MovedByte s t d.toNat imm ∧
        TraceGrowsBy s t [⟨.write, d.toNat, imm⟩]) ∧
    (¬ s.hasCell d.toNat → exec (.ldi d imm) s = .next (s.afterOutOfMemory []))

/-- Lsr halves the register and puts the bit shifted out into C (42_shift.md R141). -/
def Obligations.LsrRuleWhole : Prop :=
  DecodesAs 0xFE0F 0x9406 (fun w => .lsr (w.extractLsb' 4 5)) ∧
  OneRegisterRule .lsr (fun a => a / 2) (fun a => a.testBit 0)

/-- Lds: the window check, the memory read, the register write, in that order (43_direct_memory.md R148). -/
def Obligations.LdsRuleWhole : Prop :=
  DecodesAs 0xF800 0xA000 (formatDM .lds) ∧
  ∀ (d : RegNum) (k : DirectField) (s : State),
    (windowRejects s.params (effectiveAddress s.params k) → exec (.lds d k) s = .next (s.afterOutOfMemory [])) ∧
    (¬ windowRejects s.params (effectiveAddress s.params k) →
      (s.hasCell (effectiveAddress s.params k) → s.hasCell d.toNat →
        ∃ t, exec (.lds d k) s = .next t ∧ MovedByte s t d.toNat (s.cell (effectiveAddress s.params k)) ∧
          TraceGrowsBy s t [⟨.read, effectiveAddress s.params k, s.cell (effectiveAddress s.params k)⟩,
            ⟨.write, d.toNat, s.cell (effectiveAddress s.params k)⟩]) ∧
      (¬ s.hasCell (effectiveAddress s.params k) → exec (.lds d k) s = .next (s.afterOutOfMemory [])) ∧
      (s.hasCell (effectiveAddress s.params k) → ¬ s.hasCell d.toNat →
        exec (.lds d k) s = .next (s.afterOutOfMemory
          [⟨.read, effectiveAddress s.params k, s.cell (effectiveAddress s.params k)⟩])))

/-- Sts: the window check, the register read, the memory write, in that order; exactly the addressed cell changes
(43_direct_memory.md R150). -/
def Obligations.StsRuleWhole : Prop :=
  DecodesAs 0xF800 0xA800 (formatDM fun d k => .sts k d) ∧
  ∀ (k : DirectField) (d : RegNum) (s : State),
    (windowRejects s.params (effectiveAddress s.params k) → exec (.sts k d) s = .next (s.afterOutOfMemory [])) ∧
    (¬ windowRejects s.params (effectiveAddress s.params k) →
      (s.hasCell d.toNat → s.hasCell (effectiveAddress s.params k) →
        ∃ t, exec (.sts k d) s = .next t ∧ MovedByte s t (effectiveAddress s.params k) (s.reg d) ∧
          TraceGrowsBy s t [⟨.read, d.toNat, s.reg d⟩, ⟨.write, effectiveAddress s.params k, s.reg d⟩]) ∧
      (¬ s.hasCell d.toNat → exec (.sts k d) s = .next (s.afterOutOfMemory [])) ∧
      (s.hasCell d.toNat → ¬ s.hasCell (effectiveAddress s.params k) →
        exec (.sts k d) s = .next (s.afterOutOfMemory [⟨.read, d.toNat, s.reg d⟩])))

/-- Rjmp sets only the pc, to `(pc + k + 1) mod 65536` with `k` signed (44_control_transfer.md R156). -/
def Obligations.RjmpRuleWhole : Prop :=
  DecodesAs 0xF000 0xC000 (fun w => .rjmp (w.extractLsb' 0 12)) ∧
  ∀ (k : JumpOffset) (s : State),
    ∃ t, exec (.rjmp k) s = .next t ∧ t = { s with pc := t.pc } ∧
      (t.pc.toNat : Int) = ((s.pc.toNat : Int) + k.toInt + 1) % 65536

/-- Brbs branches when the selected flag bit is set (44_control_transfer.md R157). -/
def Obligations.BrbsRuleWhole : Prop :=
  DecodesAs 0xFC00 0xF000 (formatBR .brbs) ∧ BranchRule .brbs true

/-- Brbc branches when the selected flag bit is clear (44_control_transfer.md R158). -/
def Obligations.BrbcRuleWhole : Prop :=
  DecodesAs 0xFC00 0xF400 (formatBR .brbc) ∧ BranchRule .brbc false

/-- Nop changes the pc alone, only 0x0000 is its word, and 0x0001..0x0BFF are unknown codes (45_nop_break.md
R171). -/
def Obligations.NopRuleWhole : Prop :=
  (∀ w : Word, decode w = .instr .nop ↔ w = 0x0000) ∧
  (∀ w : Word, 0x0001 ≤ w.toNat → w.toNat ≤ 0x0BFF → decode w = .unknownCode w) ∧
  ∀ s : State, ∃ t, exec .nop s = .next t ∧ t = { s with pc := t.pc } ∧ FallsThrough s t

/-- Break changes the status alone, nothing resumes after it, and only 0x9598 is its word (45_nop_break.md R172). -/
def Obligations.BreakRuleWhole : Prop :=
  (∀ w : Word, decode w = .instr .brk ↔ w = 0x9598) ∧
  ∀ s : State, exec .brk s = .next { s with status := .haltedBreak } ∧
    ∀ t, step { s with status := .haltedBreak } ≠ .next t

/-- In (46_io.md section 2). From port 0 with a byte waiting it takes the oldest byte and writes it to its register;
with none waiting the engine is held and nothing changes; where the register does not exist and a byte waits it
halts, the byte taken or not (a free value, notes/assumptions/8.md); from every other port it only falls through.
Three points are the model's choice and not the rule's: that the held step answers the same state (6.md), that the
waiting bytes form a queue of which the oldest is taken (7.md), and that with none waiting it is held whether or not
the register exists (21.md, deduced from the order of the pseudocode). -/
def Obligations.InTakesOneByteHoldsOrFallsThrough : Prop :=
  DecodesAs 0xF800 0xB000 (formatIO .inp) ∧
  ∀ (d : RegNum) (port : PortNum) (s : State),
    (∀ v rest, port.toNat = 0 → s.input = v :: rest → s.hasCell d.toNat →
      ∃ t, exec (.inp d port) s = .next t ∧ MovedByte { s with input := rest } t d.toNat v ∧
        TraceGrowsBy s t [⟨.write, d.toNat, v⟩]) ∧
    (port.toNat = 0 → s.input = [] → exec (.inp d port) s = .next s) ∧
    (∀ v rest, port.toNat = 0 → s.input = v :: rest → ¬ s.hasCell d.toNat →
      ∃ t, exec (.inp d port) s = .next t ∧
        t = { s.afterOutOfMemory [] with input := t.input, freeIndex := t.freeIndex } ∧
        (t.input = s.input ∨ t.input = rest)) ∧
    (port.toNat ≠ 0 → ∃ t, exec (.inp d port) s = .next t ∧ t = { s with pc := t.pc } ∧ FallsThrough s t)

/-- Out (46_io.md R178): ports 0, 1 and 2 emit the register's value, every other port does nothing, and a register
that does not exist halts with nothing emitted. -/
def Obligations.OutRuleWhole : Prop :=
  DecodesAs 0xF800 0xB800 (formatIO fun d port => .out port d) ∧
  ∀ (port : PortNum) (d : RegNum) (s : State),
    (port.toNat < 3 → s.hasCell d.toNat →
      ∃ t, exec (.out port d) s = .next t ∧ FallsThrough s t ∧
        t = { s.withRecords [⟨.read, d.toNat, s.reg d⟩] with
          output := s.output ++ [⟨port, s.reg d⟩], pc := t.pc }) ∧
    (port.toNat < 3 → ¬ s.hasCell d.toNat → exec (.out port d) s = .next (s.afterOutOfMemory [])) ∧
    (¬ port.toNat < 3 → ∃ t, exec (.out port d) s = .next t ∧ t = { s with pc := t.pc } ∧ FallsThrough s t)

/-! ### The step -/

/-- A step runs the decoded instruction: Running, the pc inside program memory and its cell decoding to `i`, the
step is `exec` of `i` on that state, and nothing is added around it (47_engine_and_host.md R188). -/
def Obligations.StepRunsTheDecodedInstruction : Prop :=
  ∀ (s : State) (i : Instr), s.status = .running → s.pc.toNat < s.params.progSize →
    decode (Bank.read s.pm s.pc.toNat) = .instr i → step s = exec i s

/-- A fetch outside program memory changes the status alone (47_engine_and_host.md R186). -/
def Obligations.FetchOutsideProgramMemoryHalts : Prop :=
  ∀ s : State, s.status = .running → ¬ s.pc.toNat < s.params.progSize →
    step s = .next { s with status := .haltedFault .outOfMemory }

/-- The unknown codes are exactly the words of 30_encoding.md R96, and fetching one changes the status alone
(47_engine_and_host.md R187). -/
def Obligations.UnknownWordsAreExactlyTheListedAndHalt : Prop :=
  (∀ w : Word, decode w = .unknownCode w ↔ UnknownWord w) ∧
  ∀ s : State, s.status = .running → s.pc.toNat < s.params.progSize → UnknownWord (Bank.read s.pm s.pc.toNat) →
    step s = .next { s with status := .haltedFault .unknownCode }

/-- The three halts are final: from a halted state no step leads anywhere (60_exceptions.md R219). -/
def Obligations.HaltedEngineTakesNoStep : Prop :=
  ∀ s : State, s.status ≠ .running → ∀ t, step s ≠ .next t

/-- A Running engine always steps: to the next instruction, to a halt, or held at an In (that the held step answers
the same state is the model's choice, notes/assumptions/6.md). -/
def Obligations.RunningEngineAlwaysSteps : Prop :=
  ∀ s : State, s.status = .running → ∃ t, step s = .next t

/-- The step that halts, by Break or by a fault, changes the status and nothing else of the machine state and emits
nothing; trace records already emitted stay (60_exceptions.md R214). -/
def Obligations.HaltingStepChangesOnlyTheStatus : Prop :=
  ∀ s t : State, s.status = .running → step s = .next t → t.status ≠ .running →
    t.dm = s.dm ∧ t.pm = s.pm ∧ t.pc = s.pc ∧ t.flags = s.flags ∧ t.params = s.params ∧
    t.traceEnable = s.traceEnable ∧ t.output = s.output ∧ ∃ records, TraceGrowsBy s t records

/-- What `exec` does to the status: nothing, or the OutOfMemory halt, or, for Break alone, the clean halt
(47_engine_and_host.md R188). -/
def Obligations.OnlyBreakHaltsCleanly : Prop :=
  ∀ (i : Instr) (s t : State), exec i s = .next t →
    t.status = s.status ∨ t.status = .haltedFault .outOfMemory ∨ (i = .brk ∧ t.status = .haltedBreak)

/-- A run ends in the first halted state: the run operation answers the state reached after some number of steps
within its fuel, every earlier one of which was Running (47_engine_and_host.md R190, R191; that a held In counts as a
step is the model's choice, notes/assumptions/6.md). -/
def Obligations.RunEndsAtTheFirstHalt : Prop :=
  ∀ (fuel : Nat) (s t : State), runToHalt fuel s = some t ↔
    t.status ≠ .running ∧ ∃ n, n ≤ fuel ∧ runSteps n s = .next t ∧
      ∀ m u, m < n → runSteps m s = .next u → u.status = .running

/-- Zero cells are Nops, and a run that falls into them runs off the end: when every program cell from the pc up is
0, the engine takes one step for each of them and then halts at the fetch, changing nothing but pc and status. The
premise PROG_SIZE < 65536 is needed since the pc wraps (notes/assumptions/16.md). -/
def Obligations.ZeroCellsRunOffTheEnd : Prop :=
  ∀ (n : Nat) (s : State), s.status = .running → s.params.progSize < 65536 → s.pc.toNat + n = s.params.progSize →
    (∀ j, j < n → Bank.read s.pm (s.pc.toNat + j) = 0) →
    runSteps (n + 1) s =
      .next { s with pc := BitVec.ofNat 16 s.params.progSize, status := .haltedFault .outOfMemory }

/-! ### Whole-machine rules -/

/-- Decoded instructions run out of memory exactly when the window check rejects the address or a cell they access
does not exist (60_exceptions.md R212). That an In from port 0 accesses its register only when a byte waits, and so
does not fault before, is the model's choice (notes/assumptions/21.md, deduced from the order of the pseudocode). -/
def Obligations.OutOfMemoryExactlyWhenACellIsMissing : Prop :=
  ∀ (i : Instr) (s t : State), s.status = .running → exec i s = .next t →
    (t.status = .haltedFault .outOfMemory ↔
      windowRejectsInstr s.params i ∨ ∃ a ∈ cellsTouched s i, ¬ s.hasCell a)

/-- With all 32 registers present only Lds and Sts can run out of memory (40_alu_register.md R111). -/
def Obligations.OnlyDirectAccessCanRunOutOfMemory : Prop :=
  ∀ (i : Instr) (s t : State), 32 ≤ s.params.dataSize → s.status = .running → isDirectMemory i = false →
    exec i s = .next t → t.status ≠ .haltedFault .outOfMemory

/-- With at least 128 data cells, no window check and the default DirectAddr, Lds and Sts never fault
(43_direct_memory.md R151). -/
def Obligations.DirectAccessNeverFaultsByDefault : Prop :=
  ∀ (d : RegNum) (k : DirectField) (s : State), 128 ≤ s.params.dataSize → s.params.windowCheck = false →
    s.params.directAddr = Params.zeroExtendTable → s.status = .running →
    (∃ t, exec (.lds d k) s = .next t ∧ t.status = .running) ∧
    (∃ t, exec (.sts k d) s = .next t ∧ t.status = .running)

/-- No step writes program memory, the construction parameters or the trace switch (20_memory.md R67, 10_state.md
R35, 70_reset_and_hazards.md R240). -/
def Obligations.StepNeverWritesProgramMemory : Prop :=
  ∀ s t : State, step s = .next t → t.pm = s.pm ∧ t.params = s.params ∧ t.traceEnable = s.traceEnable

/-- Which instruction may change which flag; the padding bits are never written (10_state.md R28, R30). -/
def Obligations.FlagsChangeOnlyAsTabulated : Prop :=
  ∀ (i : Instr) (s t : State), exec i s = .next t →
    (writesCarry i = false → flagAt t.flags 0 = flagAt s.flags 0) ∧
    (writesZeroNegative i = false → flagAt t.flags 1 = flagAt s.flags 1 ∧ flagAt t.flags 2 = flagAt s.flags 2) ∧
    flagPadding t.flags = flagPadding s.flags

/-- With the padding bits 0, as the invariant has them, Brbs on a padding bit never branches and Brbc on one always
does (44_control_transfer.md R157, R158). -/
def Obligations.PaddingBitBranches : Prop :=
  ∀ (f : FlagIndex) (k : BranchOffset) (s : State), Inv s → 3 ≤ f.toNat →
    exec (.brbs f k) s = exec .nop s ∧ exec (.brbc f k) s = exec (.rjmp (k.signExtend 12)) s

/-- The port sequences move in order: a step emits at most one observation, from port 0, 1 or 2, after all earlier
ones (46_io.md R178), and takes at most one byte. That the waiting bytes form a queue of which the oldest is taken is
the model's choice (notes/assumptions/7.md). -/
def Obligations.PortSequencesMoveInOrder : Prop :=
  ∀ s t : State, step s = .next t →
    (t.output = s.output ∨ ∃ e : Emission, e.port.toNat < 3 ∧ t.output = s.output ++ [e]) ∧
    (t.input = s.input ∨ ∃ v, s.input = v :: t.input)

/-- The trace side channel does not affect a step: with the trace switched on or off, whatever it holds, the outcome
is the same but for the trace (10_state.md R35, 20_memory.md R66). -/
def Obligations.TraceNeverAffectsAStep : Prop :=
  ∀ s u : State, s.eraseTrace = u.eraseTrace → eraseTraceOf (step s) = eraseTraceOf (step u)

/-! ### The invariant -/

/-- Every step keeps the invariant, from every state that has it, reachable or not. -/
def Obligations.StepKeepsInvariant : Prop :=
  ∀ s t : State, Inv s → step s = .next t → Inv t

/-- The state after reset has the invariant. -/
def Obligations.ResetHasInvariant : Prop := Inv State.reset

/-- The host's operations and the arrival of input keep the invariant (47_engine_and_host.md R192 to R197). -/
def Obligations.HostOperationsKeepInvariant : Prop :=
  ∀ s : State, Inv s →
    Inv (hostReset s) ∧ (∀ words, Inv (installProgram words s).1) ∧ (∀ b, Inv (setTrace b s)) ∧
    (∀ v, Inv (supplyInput v s))

/-- Two canonical banks with the same contents are the same data, so that equal memories are equal states. -/
def Obligations.CanonicalBankIsItsContents : Prop :=
  ∀ (n : Nat) (m m' : Bank n), Bank.wf m → Bank.wf m' → (∀ a, Bank.read m a = Bank.read m' a) → m = m'

/-! ### Memory, registers, reset and the host interface -/

/-- Data memory: a valid address reads back what was written and no other cell changes; an access at or beyond
DATA_SIZE halts, never clamped (20_memory.md R52, R53). -/
def Obligations.DataMemoryAccessLaws : Prop :=
  ∀ (a : Nat) (v : Byte) (s : State),
    (s.hasCell a →
      (∃ t, (∀ k, writeCell a v s k = k t) ∧ t.cell a = v ∧ OnlyCellChanged s t a ∧ SameElsewhere s t ∧
        t.flags = s.flags ∧ t.pc = s.pc ∧ TraceGrowsBy s t [⟨.write, a, v⟩]) ∧
      (∀ k, readCell a s k = k (s.cell a) (s.withRecords [⟨.read, a, s.cell a⟩]))) ∧
    (¬ s.hasCell a →
      (∀ k, writeCell a v s k = .next (s.afterOutOfMemory [])) ∧
      (∀ k, readCell a s k = .next (s.afterOutOfMemory [])))

/-- A stored byte is what a load of the same address returns, whichever registers carry it (20_memory.md R64). -/
def Obligations.StoreThenLoadReturnsTheByte : Prop :=
  ∀ (k : DirectField) (r d : RegNum) (s : State), s.hasCell r.toNat → s.hasCell d.toNat →
    s.hasCell (effectiveAddress s.params k) → ¬ windowRejects s.params (effectiveAddress s.params k) →
    ∃ t u, exec (.sts k r) s = .next t ∧ exec (.lds d k) t = .next u ∧ u.reg d = s.reg r

/-- Add on the low bytes and Adc on the high bytes add 16-bit numbers: the carry of the first enters the second
(40_alu_register.md R112, R113). -/
def Obligations.AddThenAdcAddsSixteenBits : Prop :=
  ∀ (dl dh rl rh : RegNum) (s : State), s.hasCell dl.toNat → s.hasCell dh.toNat → s.hasCell rl.toNat →
    s.hasCell rh.toNat → dl ≠ dh → dl ≠ rh →
    ∃ t u, exec (.add dl rl) s = .next t ∧ exec (.adc dh rh) t = .next u ∧
      256 * (u.reg dh).toNat + (u.reg dl).toNat =
        ((256 * (s.reg dh).toNat + (s.reg dl).toNat) + (256 * (s.reg rh).toNat + (s.reg rl).toNat)) % 65536 ∧
      (flagAt u.flags 0 = true ↔
        65535 < (256 * (s.reg dh).toNat + (s.reg dl).toNat) + (256 * (s.reg rh).toNat + (s.reg rl).toNat))

/-- Subtracting `256 - K` adds `K` modulo 256, with C inverted relative to an addition (41_alu_immediate.md R131). -/
def Obligations.SubiOfComplementAdds : Prop :=
  ∀ (d : RegNum) (imm : Byte) (s : State), s.hasCell d.toNat → imm ≠ 0 →
    ∃ t, exec (.subi d (BitVec.ofNat 8 (256 - imm.toNat))) s = .next t ∧
      (t.reg d).toNat = ((s.reg d).toNat + imm.toNat) % 256 ∧
      (flagAt t.flags 0 = false ↔ 255 < (s.reg d).toNat + imm.toNat)

/-- The pointer pairs are the concatenation of their registers, the odd-numbered one high (10_state.md R24), wherever
those registers exist; where they do not, ViewsShowTheCells says what the views answer. -/
def Obligations.RegisterPairsAreConcatenations : Prop :=
  ∀ s : State,
    (s.hasCell 27 → PairShows (pairX s) (s.cell 27) (s.cell 26)) ∧
    (s.hasCell 29 → PairShows (pairY s) (s.cell 29) (s.cell 28)) ∧
    (s.hasCell 31 → PairShows (pairZ s) (s.cell 31) (s.cell 30))

/-- Construction with any parameters, and reset from any state with its parameters kept, give every piece of state
the value of the table of 10_state.md R37 (70_reset_and_hazards.md R240, R241). -/
def Obligations.ConstructionAndResetValues : Prop :=
  ∀ (p : Params) (s : State),
    ((∀ a, (State.construct p).cell a = 0) ∧ (∀ a, Bank.read (State.construct p).pm a = 0) ∧
      (State.construct p).pc = 0 ∧ (State.construct p).flags = 0 ∧ (State.construct p).status = .running ∧
      (State.construct p).traceEnable = false ∧ (State.construct p).params = p) ∧
    ((∀ a, (hostReset s).cell a = 0) ∧ (∀ a, Bank.read (hostReset s).pm a = 0) ∧
      (hostReset s).pc = 0 ∧ (hostReset s).flags = 0 ∧ (hostReset s).status = .running ∧
      (hostReset s).traceEnable = false ∧ (hostReset s).params = s.params)

/-- Installing a program writes its words from cell 0 on and touches nothing else; a program that does not fit
writes what fits and reports OutOfMemory (47_engine_and_host.md R192). That an over-long install also touches nothing
but program memory, the status included, is the model's choice (notes/assumptions/12.md). -/
def Obligations.InstallWritesFromCellZero : Prop :=
  ∀ (words : List Word) (s : State),
    (installProgram words s).1 = { s with pm := (installProgram words s).1.pm } ∧
    (words.length ≤ s.params.progSize → (installProgram words s).2 = .done) ∧
    (s.params.progSize < words.length → (installProgram words s).2 = .outOfMemory) ∧
    (∀ j w, words[j]? = some w → j < s.params.progSize → Bank.read (installProgram words s).1.pm j = w) ∧
    (∀ j, words.length ≤ j ∨ s.params.progSize ≤ j → Bank.read (installProgram words s).1.pm j = Bank.read s.pm j)

/-- The views read the cells (47_engine_and_host.md R199), and the halt reason is the halted status itself, so that
the halts are told apart, and none while Running (R196). That a view of cells outside the bank, a pair with a missing
register among them, is answered with none is the model's choice (notes/assumptions/19.md). -/
def Obligations.ViewsShowTheCells : Prop :=
  ∀ (s : State) (a n : Nat),
    ViewShows (viewRegisters s) (32 ≤ s.params.dataSize) 32 s.cell ∧
    ViewShows (viewData s a n) (a + n ≤ s.params.dataSize) n (fun j => s.cell (a + j)) ∧
    ViewShows (viewProgram s a n) (a + n ≤ s.params.progSize) n (fun j => Bank.read s.pm (a + j)) ∧
    (¬ s.hasCell 27 → pairX s = none) ∧ (¬ s.hasCell 29 → pairY s = none) ∧ (¬ s.hasCell 31 → pairZ s = none) ∧
    (s.status = .running → haltReason s = none) ∧ (s.status ≠ .running → haltReason s = some s.status)

/-- The trace toggle sets the trace switch and changes nothing else (47_engine_and_host.md R197), and a byte the
port-0 device supplies joins the waiting ones at the end and changes nothing else; that the waiting bytes form a queue
is the model's choice (notes/assumptions/7.md). -/
def Obligations.TraceToggleAndSuppliedInputChangeOneField : Prop :=
  ∀ (s : State) (b : Bool) (v : Byte),
    setTrace b s = { s with traceEnable := b } ∧ supplyInput v s = { s with input := s.input ++ [v] }
end

