-- ==== Sys2Proof/Laws/State.lean ====
section
/-!
SUPPORT. One lemma per field per update of the state, each true by rfl, so that no later proof unfolds a record
update; then the same for the cell and register reads.
-/
namespace Sys2Proof.Machine

/-! `State.halt` -/

@[simp] theorem State.halt_params (s : State) (why : Status) : (s.halt why).params = s.params := rfl
@[simp] theorem State.halt_dm (s : State) (why : Status) : (s.halt why).dm = s.dm := rfl
@[simp] theorem State.halt_pm (s : State) (why : Status) : (s.halt why).pm = s.pm := rfl
@[simp] theorem State.halt_pc (s : State) (why : Status) : (s.halt why).pc = s.pc := rfl
@[simp] theorem State.halt_flags (s : State) (why : Status) : (s.halt why).flags = s.flags := rfl
@[simp] theorem State.halt_status (s : State) (why : Status) : (s.halt why).status = why := rfl
@[simp] theorem State.halt_traceEnable (s : State) (why : Status) : (s.halt why).traceEnable = s.traceEnable := rfl
@[simp] theorem State.halt_trace (s : State) (why : Status) : (s.halt why).trace = s.trace := rfl
@[simp] theorem State.halt_output (s : State) (why : Status) : (s.halt why).output = s.output := rfl
@[simp] theorem State.halt_input (s : State) (why : Status) : (s.halt why).input = s.input := rfl
@[simp] theorem State.halt_freeIndex (s : State) (why : Status) : (s.halt why).freeIndex = s.freeIndex := rfl

/-! `State.traced` -/

@[simp] theorem State.traced_params (s : State) (r : AccessRecord) : (s.traced r).params = s.params := rfl
@[simp] theorem State.traced_dm (s : State) (r : AccessRecord) : (s.traced r).dm = s.dm := rfl
@[simp] theorem State.traced_pm (s : State) (r : AccessRecord) : (s.traced r).pm = s.pm := rfl
@[simp] theorem State.traced_pc (s : State) (r : AccessRecord) : (s.traced r).pc = s.pc := rfl
@[simp] theorem State.traced_flags (s : State) (r : AccessRecord) : (s.traced r).flags = s.flags := rfl
@[simp] theorem State.traced_status (s : State) (r : AccessRecord) : (s.traced r).status = s.status := rfl
@[simp] theorem State.traced_traceEnable (s : State) (r : AccessRecord) : (s.traced r).traceEnable = s.traceEnable := rfl
@[simp] theorem State.traced_trace (s : State) (r : AccessRecord) : (s.traced r).trace = if s.traceEnable then s.trace ++ [r] else s.trace := rfl
@[simp] theorem State.traced_output (s : State) (r : AccessRecord) : (s.traced r).output = s.output := rfl
@[simp] theorem State.traced_input (s : State) (r : AccessRecord) : (s.traced r).input = s.input := rfl
@[simp] theorem State.traced_freeIndex (s : State) (r : AccessRecord) : (s.traced r).freeIndex = s.freeIndex := rfl

/-! `State.advance` -/

@[simp] theorem State.advance_params (s : State) : (s.advance).params = s.params := rfl
@[simp] theorem State.advance_dm (s : State) : (s.advance).dm = s.dm := rfl
@[simp] theorem State.advance_pm (s : State) : (s.advance).pm = s.pm := rfl
@[simp] theorem State.advance_pc (s : State) : (s.advance).pc = s.pc + 1 := rfl
@[simp] theorem State.advance_flags (s : State) : (s.advance).flags = s.flags := rfl
@[simp] theorem State.advance_status (s : State) : (s.advance).status = s.status := rfl
@[simp] theorem State.advance_traceEnable (s : State) : (s.advance).traceEnable = s.traceEnable := rfl
@[simp] theorem State.advance_trace (s : State) : (s.advance).trace = s.trace := rfl
@[simp] theorem State.advance_output (s : State) : (s.advance).output = s.output := rfl
@[simp] theorem State.advance_input (s : State) : (s.advance).input = s.input := rfl
@[simp] theorem State.advance_freeIndex (s : State) : (s.advance).freeIndex = s.freeIndex := rfl

/-! `State.jump` -/

@[simp] theorem State.jump_params (s : State) (k : Word) : (s.jump k).params = s.params := rfl
@[simp] theorem State.jump_dm (s : State) (k : Word) : (s.jump k).dm = s.dm := rfl
@[simp] theorem State.jump_pm (s : State) (k : Word) : (s.jump k).pm = s.pm := rfl
@[simp] theorem State.jump_pc (s : State) (k : Word) : (s.jump k).pc = s.pc + k + 1 := rfl
@[simp] theorem State.jump_flags (s : State) (k : Word) : (s.jump k).flags = s.flags := rfl
@[simp] theorem State.jump_status (s : State) (k : Word) : (s.jump k).status = s.status := rfl
@[simp] theorem State.jump_traceEnable (s : State) (k : Word) : (s.jump k).traceEnable = s.traceEnable := rfl
@[simp] theorem State.jump_trace (s : State) (k : Word) : (s.jump k).trace = s.trace := rfl
@[simp] theorem State.jump_output (s : State) (k : Word) : (s.jump k).output = s.output := rfl
@[simp] theorem State.jump_input (s : State) (k : Word) : (s.jump k).input = s.input := rfl
@[simp] theorem State.jump_freeIndex (s : State) (k : Word) : (s.jump k).freeIndex = s.freeIndex := rfl

/-! `State.emit` -/

@[simp] theorem State.emit_params (s : State) (port : PortNum) (v : Byte) : (s.emit port v).params = s.params := rfl
@[simp] theorem State.emit_dm (s : State) (port : PortNum) (v : Byte) : (s.emit port v).dm = s.dm := rfl
@[simp] theorem State.emit_pm (s : State) (port : PortNum) (v : Byte) : (s.emit port v).pm = s.pm := rfl
@[simp] theorem State.emit_pc (s : State) (port : PortNum) (v : Byte) : (s.emit port v).pc = s.pc := rfl
@[simp] theorem State.emit_flags (s : State) (port : PortNum) (v : Byte) : (s.emit port v).flags = s.flags := rfl
@[simp] theorem State.emit_status (s : State) (port : PortNum) (v : Byte) : (s.emit port v).status = s.status := rfl
@[simp] theorem State.emit_traceEnable (s : State) (port : PortNum) (v : Byte) : (s.emit port v).traceEnable = s.traceEnable := rfl
@[simp] theorem State.emit_trace (s : State) (port : PortNum) (v : Byte) : (s.emit port v).trace = s.trace := rfl
@[simp] theorem State.emit_output (s : State) (port : PortNum) (v : Byte) : (s.emit port v).output = s.output ++ [⟨port, v⟩] := rfl
@[simp] theorem State.emit_input (s : State) (port : PortNum) (v : Byte) : (s.emit port v).input = s.input := rfl
@[simp] theorem State.emit_freeIndex (s : State) (port : PortNum) (v : Byte) : (s.emit port v).freeIndex = s.freeIndex := rfl

/-! `State.drawFaultingInput` -/

@[simp] theorem State.drawFaultingInput_params (s : State) (rest : List Byte) : (s.drawFaultingInput rest).params = s.params := rfl
@[simp] theorem State.drawFaultingInput_dm (s : State) (rest : List Byte) : (s.drawFaultingInput rest).dm = s.dm := rfl
@[simp] theorem State.drawFaultingInput_pm (s : State) (rest : List Byte) : (s.drawFaultingInput rest).pm = s.pm := rfl
@[simp] theorem State.drawFaultingInput_pc (s : State) (rest : List Byte) : (s.drawFaultingInput rest).pc = s.pc := rfl
@[simp] theorem State.drawFaultingInput_flags (s : State) (rest : List Byte) : (s.drawFaultingInput rest).flags = s.flags := rfl
@[simp] theorem State.drawFaultingInput_status (s : State) (rest : List Byte) : (s.drawFaultingInput rest).status = s.status := rfl
@[simp] theorem State.drawFaultingInput_traceEnable (s : State) (rest : List Byte) : (s.drawFaultingInput rest).traceEnable = s.traceEnable := rfl
@[simp] theorem State.drawFaultingInput_trace (s : State) (rest : List Byte) : (s.drawFaultingInput rest).trace = s.trace := rfl
@[simp] theorem State.drawFaultingInput_output (s : State) (rest : List Byte) : (s.drawFaultingInput rest).output = s.output := rfl
@[simp] theorem State.drawFaultingInput_input (s : State) (rest : List Byte) : (s.drawFaultingInput rest).input = if Config.faultingInTakesByte s.freeIndex then rest else s.input := rfl
@[simp] theorem State.drawFaultingInput_freeIndex (s : State) (rest : List Byte) : (s.drawFaultingInput rest).freeIndex = s.freeIndex + 1 := rfl

/-! `State.withRecords` -/

@[simp] theorem State.withRecords_params (s : State) (l : List AccessRecord) : (s.withRecords l).params = s.params := rfl
@[simp] theorem State.withRecords_dm (s : State) (l : List AccessRecord) : (s.withRecords l).dm = s.dm := rfl
@[simp] theorem State.withRecords_pm (s : State) (l : List AccessRecord) : (s.withRecords l).pm = s.pm := rfl
@[simp] theorem State.withRecords_pc (s : State) (l : List AccessRecord) : (s.withRecords l).pc = s.pc := rfl
@[simp] theorem State.withRecords_flags (s : State) (l : List AccessRecord) : (s.withRecords l).flags = s.flags := rfl
@[simp] theorem State.withRecords_status (s : State) (l : List AccessRecord) : (s.withRecords l).status = s.status := rfl
@[simp] theorem State.withRecords_traceEnable (s : State) (l : List AccessRecord) : (s.withRecords l).traceEnable = s.traceEnable := rfl
@[simp] theorem State.withRecords_trace (s : State) (l : List AccessRecord) : (s.withRecords l).trace = if s.traceEnable then s.trace ++ l else s.trace := rfl
@[simp] theorem State.withRecords_output (s : State) (l : List AccessRecord) : (s.withRecords l).output = s.output := rfl
@[simp] theorem State.withRecords_input (s : State) (l : List AccessRecord) : (s.withRecords l).input = s.input := rfl
@[simp] theorem State.withRecords_freeIndex (s : State) (l : List AccessRecord) : (s.withRecords l).freeIndex = s.freeIndex := rfl

/-! `State.afterOutOfMemory` -/

@[simp] theorem State.afterOutOfMemory_params (s : State) (l : List AccessRecord) : (s.afterOutOfMemory l).params = s.params := rfl
@[simp] theorem State.afterOutOfMemory_dm (s : State) (l : List AccessRecord) : (s.afterOutOfMemory l).dm = s.dm := rfl
@[simp] theorem State.afterOutOfMemory_pm (s : State) (l : List AccessRecord) : (s.afterOutOfMemory l).pm = s.pm := rfl
@[simp] theorem State.afterOutOfMemory_pc (s : State) (l : List AccessRecord) : (s.afterOutOfMemory l).pc = s.pc := rfl
@[simp] theorem State.afterOutOfMemory_flags (s : State) (l : List AccessRecord) : (s.afterOutOfMemory l).flags = s.flags := rfl
@[simp] theorem State.afterOutOfMemory_status (s : State) (l : List AccessRecord) : (s.afterOutOfMemory l).status = .haltedFault .outOfMemory := rfl
@[simp] theorem State.afterOutOfMemory_traceEnable (s : State) (l : List AccessRecord) : (s.afterOutOfMemory l).traceEnable = s.traceEnable := rfl
@[simp] theorem State.afterOutOfMemory_trace (s : State) (l : List AccessRecord) : (s.afterOutOfMemory l).trace = if s.traceEnable then s.trace ++ l else s.trace := rfl
@[simp] theorem State.afterOutOfMemory_output (s : State) (l : List AccessRecord) : (s.afterOutOfMemory l).output = s.output := rfl
@[simp] theorem State.afterOutOfMemory_input (s : State) (l : List AccessRecord) : (s.afterOutOfMemory l).input = s.input := rfl
@[simp] theorem State.afterOutOfMemory_freeIndex (s : State) (l : List AccessRecord) : (s.afterOutOfMemory l).freeIndex = s.freeIndex := rfl

/-! `State.eraseTrace` -/

@[simp] theorem State.eraseTrace_params (s : State) : (s.eraseTrace).params = s.params := rfl
@[simp] theorem State.eraseTrace_dm (s : State) : (s.eraseTrace).dm = s.dm := rfl
@[simp] theorem State.eraseTrace_pm (s : State) : (s.eraseTrace).pm = s.pm := rfl
@[simp] theorem State.eraseTrace_pc (s : State) : (s.eraseTrace).pc = s.pc := rfl
@[simp] theorem State.eraseTrace_flags (s : State) : (s.eraseTrace).flags = s.flags := rfl
@[simp] theorem State.eraseTrace_status (s : State) : (s.eraseTrace).status = s.status := rfl
@[simp] theorem State.eraseTrace_traceEnable (s : State) : (s.eraseTrace).traceEnable = false := rfl
@[simp] theorem State.eraseTrace_trace (s : State) : (s.eraseTrace).trace = [] := rfl
@[simp] theorem State.eraseTrace_output (s : State) : (s.eraseTrace).output = s.output := rfl
@[simp] theorem State.eraseTrace_input (s : State) : (s.eraseTrace).input = s.input := rfl
@[simp] theorem State.eraseTrace_freeIndex (s : State) : (s.eraseTrace).freeIndex = s.freeIndex := rfl

/-! `State.withFetchWord` -/

@[simp] theorem State.withFetchWord_params (s : State) (nbits w : Nat) : (s.withFetchWord nbits w).params = { s.params with progSize := max s.params.progSize (s.pc.toNat + 1) } := rfl
@[simp] theorem State.withFetchWord_dm (s : State) (nbits w : Nat) : (s.withFetchWord nbits w).dm = s.dm := rfl
@[simp] theorem State.withFetchWord_pm (s : State) (nbits w : Nat) : (s.withFetchWord nbits w).pm = Bank.write s.pm s.pc.toNat (tableWord nbits w) := rfl
@[simp] theorem State.withFetchWord_pc (s : State) (nbits w : Nat) : (s.withFetchWord nbits w).pc = s.pc := rfl
@[simp] theorem State.withFetchWord_flags (s : State) (nbits w : Nat) : (s.withFetchWord nbits w).flags = s.flags := rfl
@[simp] theorem State.withFetchWord_status (s : State) (nbits w : Nat) : (s.withFetchWord nbits w).status = .running := rfl
@[simp] theorem State.withFetchWord_traceEnable (s : State) (nbits w : Nat) : (s.withFetchWord nbits w).traceEnable = s.traceEnable := rfl
@[simp] theorem State.withFetchWord_trace (s : State) (nbits w : Nat) : (s.withFetchWord nbits w).trace = s.trace := rfl
@[simp] theorem State.withFetchWord_output (s : State) (nbits w : Nat) : (s.withFetchWord nbits w).output = s.output := rfl
@[simp] theorem State.withFetchWord_input (s : State) (nbits w : Nat) : (s.withFetchWord nbits w).input = s.input := rfl
@[simp] theorem State.withFetchWord_freeIndex (s : State) (nbits w : Nat) : (s.withFetchWord nbits w).freeIndex = s.freeIndex := rfl

/-! `hostReset` -/

@[simp] theorem hostReset_params (s : State) : (hostReset s).params = s.params := rfl
@[simp] theorem hostReset_dm (s : State) : (hostReset s).dm = [] := rfl
@[simp] theorem hostReset_pm (s : State) : (hostReset s).pm = [] := rfl
@[simp] theorem hostReset_pc (s : State) : (hostReset s).pc = 0 := rfl
@[simp] theorem hostReset_flags (s : State) : (hostReset s).flags = 0 := rfl
@[simp] theorem hostReset_status (s : State) : (hostReset s).status = .running := rfl
@[simp] theorem hostReset_traceEnable (s : State) : (hostReset s).traceEnable = false := rfl
@[simp] theorem hostReset_trace (s : State) : (hostReset s).trace = [] := rfl
@[simp] theorem hostReset_output (s : State) : (hostReset s).output = [] := rfl
@[simp] theorem hostReset_input (s : State) : (hostReset s).input = s.input := rfl
@[simp] theorem hostReset_freeIndex (s : State) : (hostReset s).freeIndex = s.freeIndex := rfl

/-! `setTrace` -/

@[simp] theorem setTrace_params (b : Bool) (s : State) : (setTrace b s).params = s.params := rfl
@[simp] theorem setTrace_dm (b : Bool) (s : State) : (setTrace b s).dm = s.dm := rfl
@[simp] theorem setTrace_pm (b : Bool) (s : State) : (setTrace b s).pm = s.pm := rfl
@[simp] theorem setTrace_pc (b : Bool) (s : State) : (setTrace b s).pc = s.pc := rfl
@[simp] theorem setTrace_flags (b : Bool) (s : State) : (setTrace b s).flags = s.flags := rfl
@[simp] theorem setTrace_status (b : Bool) (s : State) : (setTrace b s).status = s.status := rfl
@[simp] theorem setTrace_traceEnable (b : Bool) (s : State) : (setTrace b s).traceEnable = b := rfl
@[simp] theorem setTrace_trace (b : Bool) (s : State) : (setTrace b s).trace = s.trace := rfl
@[simp] theorem setTrace_output (b : Bool) (s : State) : (setTrace b s).output = s.output := rfl
@[simp] theorem setTrace_input (b : Bool) (s : State) : (setTrace b s).input = s.input := rfl
@[simp] theorem setTrace_freeIndex (b : Bool) (s : State) : (setTrace b s).freeIndex = s.freeIndex := rfl

/-! `supplyInput` -/

@[simp] theorem supplyInput_params (v : Byte) (s : State) : (supplyInput v s).params = s.params := rfl
@[simp] theorem supplyInput_dm (v : Byte) (s : State) : (supplyInput v s).dm = s.dm := rfl
@[simp] theorem supplyInput_pm (v : Byte) (s : State) : (supplyInput v s).pm = s.pm := rfl
@[simp] theorem supplyInput_pc (v : Byte) (s : State) : (supplyInput v s).pc = s.pc := rfl
@[simp] theorem supplyInput_flags (v : Byte) (s : State) : (supplyInput v s).flags = s.flags := rfl
@[simp] theorem supplyInput_status (v : Byte) (s : State) : (supplyInput v s).status = s.status := rfl
@[simp] theorem supplyInput_traceEnable (v : Byte) (s : State) : (supplyInput v s).traceEnable = s.traceEnable := rfl
@[simp] theorem supplyInput_trace (v : Byte) (s : State) : (supplyInput v s).trace = s.trace := rfl
@[simp] theorem supplyInput_output (v : Byte) (s : State) : (supplyInput v s).output = s.output := rfl
@[simp] theorem supplyInput_input (v : Byte) (s : State) : (supplyInput v s).input = s.input ++ [v] := rfl
@[simp] theorem supplyInput_freeIndex (v : Byte) (s : State) : (supplyInput v s).freeIndex = s.freeIndex := rfl

/-! `installProgram` -/

@[simp] theorem installProgram_fst_params (words : List Word) (s : State) : ((installProgram words s).1).params = s.params := rfl
@[simp] theorem installProgram_fst_dm (words : List Word) (s : State) : ((installProgram words s).1).dm = s.dm := rfl
@[simp] theorem installProgram_fst_pm (words : List Word) (s : State) : ((installProgram words s).1).pm = (installFrom s.params.progSize 0 words s.pm).1 := rfl
@[simp] theorem installProgram_fst_pc (words : List Word) (s : State) : ((installProgram words s).1).pc = s.pc := rfl
@[simp] theorem installProgram_fst_flags (words : List Word) (s : State) : ((installProgram words s).1).flags = s.flags := rfl
@[simp] theorem installProgram_fst_status (words : List Word) (s : State) : ((installProgram words s).1).status = s.status := rfl
@[simp] theorem installProgram_fst_traceEnable (words : List Word) (s : State) : ((installProgram words s).1).traceEnable = s.traceEnable := rfl
@[simp] theorem installProgram_fst_trace (words : List Word) (s : State) : ((installProgram words s).1).trace = s.trace := rfl
@[simp] theorem installProgram_fst_output (words : List Word) (s : State) : ((installProgram words s).1).output = s.output := rfl
@[simp] theorem installProgram_fst_input (words : List Word) (s : State) : ((installProgram words s).1).input = s.input := rfl
@[simp] theorem installProgram_fst_freeIndex (words : List Word) (s : State) : ((installProgram words s).1).freeIndex = s.freeIndex := rfl

/-! `State.construct` -/

@[simp] theorem State.construct_params (p : Params) : (State.construct p).params = p := rfl
@[simp] theorem State.construct_dm (p : Params) : (State.construct p).dm = [] := rfl
@[simp] theorem State.construct_pm (p : Params) : (State.construct p).pm = [] := rfl
@[simp] theorem State.construct_pc (p : Params) : (State.construct p).pc = 0 := rfl
@[simp] theorem State.construct_flags (p : Params) : (State.construct p).flags = 0 := rfl
@[simp] theorem State.construct_status (p : Params) : (State.construct p).status = .running := rfl
@[simp] theorem State.construct_traceEnable (p : Params) : (State.construct p).traceEnable = false := rfl
@[simp] theorem State.construct_trace (p : Params) : (State.construct p).trace = [] := rfl
@[simp] theorem State.construct_output (p : Params) : (State.construct p).output = [] := rfl
@[simp] theorem State.construct_input (p : Params) : (State.construct p).input = [] := rfl
@[simp] theorem State.construct_freeIndex (p : Params) : (State.construct p).freeIndex = 0 := rfl

/-! Cells and registers see data memory alone -/

@[simp] theorem State.cell_halt (s : State) (why : Status) (a : Nat) : (s.halt why).cell a = s.cell a := rfl
@[simp] theorem State.cell_traced (s : State) (r : AccessRecord) (a : Nat) : (s.traced r).cell a = s.cell a := rfl
@[simp] theorem State.cell_advance (s : State) (a : Nat) : s.advance.cell a = s.cell a := rfl
@[simp] theorem State.cell_jump (s : State) (k : Word) (a : Nat) : (s.jump k).cell a = s.cell a := rfl
@[simp] theorem State.cell_emit (s : State) (p : PortNum) (v : Byte) (a : Nat) : (s.emit p v).cell a = s.cell a := rfl
@[simp] theorem State.reg_halt (s : State) (why : Status) (i : RegNum) : (s.halt why).reg i = s.reg i := rfl
@[simp] theorem State.reg_traced (s : State) (r : AccessRecord) (i : RegNum) : (s.traced r).reg i = s.reg i := rfl
@[simp] theorem State.reg_advance (s : State) (i : RegNum) : s.advance.reg i = s.reg i := rfl
@[simp] theorem State.reg_jump (s : State) (k : Word) (i : RegNum) : (s.jump k).reg i = s.reg i := rfl
@[simp] theorem State.reg_emit (s : State) (p : PortNum) (v : Byte) (i : RegNum) : (s.emit p v).reg i = s.reg i := rfl

/-- A register is its data cell (10_state.md R22). -/
theorem State.reg_eq_cell (s : State) (i : RegNum) : s.reg i = s.cell i.toNat := rfl

/-- Records come one at a time or all at once. -/
theorem State.traced_eq_withRecords (s : State) (r : AccessRecord) : s.traced r = s.withRecords [r] := rfl

theorem State.withRecords_nil (s : State) : s.withRecords [] = s := by
  simp [State.withRecords]

theorem State.withRecords_append (s : State) (l l' : List AccessRecord) :
    (s.withRecords l).withRecords l' = s.withRecords (l ++ l') := by
  cases h : s.traceEnable <;> simp [State.withRecords, h]

/-- A halt after some records is the state `afterOutOfMemory` of those records. -/
theorem State.afterOutOfMemory_eq (s : State) (l : List AccessRecord) :
    (s.withRecords l).halt (.haltedFault .outOfMemory) = s.afterOutOfMemory l := rfl

end Sys2Proof.Machine
end

