-- ==== Sys2Proof/Laws/Bank.lean ====
section
/-!
SUPPORT. The laws of a bank (spec/20_memory.md R52): a read after a write to the same cell gives the value written,
every other cell reads as before, for every list whatever its form; and every operation keeps the canonical form
and the bound on the listed addresses.
-/
namespace Sys2Proof.Machine

variable {n : Nat}

theorem Bank.read_nil (a : Nat) : Bank.read ([] : Bank n) a = 0 := rfl

theorem Bank.read_dropCell (m : Bank n) (a b : Nat) :
    Bank.read (m.dropCell a) b = if b = a then 0 else Bank.read m b := by
  induction m with
  | nil => simp [Bank.dropCell, Bank.read]
  | cons c m ih =>
    by_cases hc : c.1 = a
    · have hd : Bank.dropCell (c :: m) a = Bank.dropCell m a := by simp [Bank.dropCell, hc]
      rw [hd, ih, Bank.read, hc]
      split <;> rfl
    · have hd : Bank.dropCell (c :: m) a = c :: Bank.dropCell m a := by simp [Bank.dropCell, hc]
      rw [hd, Bank.read, Bank.read, ih]
      by_cases hb : b = c.1
      · simp [hb, hc]
      · simp [hb]

theorem Bank.key_ne_of_mem_dropCell {m : Bank n} {a : Nat} {c : Nat × BitVec n} (h : c ∈ m.dropCell a) :
    c.1 ≠ a := by
  simpa using (List.mem_filter.mp h).2

theorem Bank.read_insertCell (m : Bank n) (a b : Nat) (v : BitVec n) (h : ∀ c ∈ m, c.1 ≠ a) :
    Bank.read (m.insertCell a v) b = if b = a then v else Bank.read m b := by
  induction m with
  | nil => rfl
  | cons c m ih =>
    have hc : c.1 ≠ a := h c (by simp)
    rw [Bank.insertCell]
    split
    · rfl
    · rw [Bank.read, Bank.read, ih fun x hx => h x (by simp [hx])]
      by_cases hb : b = c.1
      · simp [hb, hc]
      · simp [hb]

/-- What a write does to every later read. -/
theorem Bank.read_write (m : Bank n) (a b : Nat) (v : BitVec n) :
    Bank.read (m.write a v) b = if b = a then v else Bank.read m b := by
  rw [Bank.write]
  split
  · next hv => rw [Bank.read_dropCell, hv]
  · rw [Bank.read_insertCell _ _ _ _ fun c hc => Bank.key_ne_of_mem_dropCell hc, Bank.read_dropCell]
    split <;> rfl

theorem Bank.mem_insertCell {m : Bank n} {a : Nat} {v : BitVec n} {c : Nat × BitVec n} :
    c ∈ m.insertCell a v ↔ c = (a, v) ∨ c ∈ m := by
  induction m with
  | nil => simp [Bank.insertCell]
  | cons x m ih =>
    rw [Bank.insertCell]
    split
    · simp
    · simp only [List.mem_cons, ih]
      tauto

/-- Every cell a write lists is the written one or was listed before. -/
theorem Bank.mem_write {m : Bank n} {a : Nat} {v : BitVec n} {c : Nat × BitVec n} (h : c ∈ m.write a v) :
    (c = (a, v) ∧ v ≠ 0) ∨ c ∈ m := by
  rw [Bank.write] at h
  split at h
  · exact .inr (List.mem_filter.mp h).1
  · next hv =>
    rcases Bank.mem_insertCell.mp h with rfl | hc
    · exact .inl ⟨rfl, hv⟩
    · exact .inr (List.mem_filter.mp hc).1

theorem Bank.pairwise_insertCell {m : Bank n} {a : Nat} {v : BitVec n}
    (hm : m.Pairwise fun x y => x.1 < y.1) (ha : ∀ c ∈ m, c.1 ≠ a) :
    (m.insertCell a v).Pairwise fun x y => x.1 < y.1 := by
  induction m with
  | nil => simp [Bank.insertCell]
  | cons c m ih =>
    have hc := List.pairwise_cons.mp hm
    rw [Bank.insertCell]
    split
    · next hlt =>
      refine List.pairwise_cons.mpr ⟨fun x hx => ?_, hm⟩
      rcases List.mem_cons.mp hx with rfl | hx
      · exact hlt
      · exact Nat.lt_trans hlt (hc.1 x hx)
    · next hle =>
      refine List.pairwise_cons.mpr ⟨fun x hx => ?_, ih hc.2 fun x hx => ha x (by simp [hx])⟩
      have hca := ha c (by simp)
      rcases Bank.mem_insertCell.mp hx with rfl | hx
      · show c.1 < a
        omega
      · exact hc.1 x hx

/-- A write keeps the canonical form. -/
theorem Bank.wf_write {m : Bank n} (a : Nat) (v : BitVec n) (h : Bank.wf m) : Bank.wf (m.write a v) := by
  refine ⟨?_, fun c hc => ?_⟩
  · have hd : (m.dropCell a).Pairwise fun x y => x.1 < y.1 := h.1.filter _
    rw [Bank.write]
    split
    · exact hd
    · exact Bank.pairwise_insertCell hd fun c hc => Bank.key_ne_of_mem_dropCell hc
  · rcases Bank.mem_write hc with ⟨rfl, hv⟩ | hm
    · exact hv
    · exact h.2 c hm

/-- A write inside the bank lists no cell outside it. -/
theorem Bank.within_write {m : Bank n} {size a : Nat} (v : BitVec n) (h : Bank.within m size) (ha : a < size) :
    Bank.within (m.write a v) size := by
  intro c hc
  rcases Bank.mem_write hc with ⟨rfl, -⟩ | hm
  · exact ha
  · exact h c hm

theorem Bank.wf_nil : Bank.wf ([] : Bank n) := ⟨.nil, fun _ h => nomatch h⟩

theorem Bank.within_nil (size : Nat) : Bank.within ([] : Bank n) size := fun _ h => nomatch h

/-- Installing keeps the canonical form and the bound. -/
theorem installFrom_wf (size i : Nat) (ws : List Word) (m : ProgMemory) (h : Bank.wf m) :
    Bank.wf (installFrom size i ws m).1 := by
  induction ws generalizing i m with
  | nil => exact h
  | cons w ws ih =>
    rw [installFrom]
    split
    · exact ih _ _ (Bank.wf_write _ _ h)
    · exact h

theorem installFrom_within (size i : Nat) (ws : List Word) (m : ProgMemory) (h : Bank.within m size) :
    Bank.within (installFrom size i ws m).1 size := by
  induction ws generalizing i m with
  | nil => exact h
  | cons w ws ih =>
    rw [installFrom]
    split
    · next hi => exact ih _ _ (Bank.within_write _ h hi)
    · exact h

/-- Reset data memory has the canonical form. -/
theorem reset_dm_wf : Memory.wf State.reset.dm := Bank.wf_nil

end Sys2Proof.Machine
end

