-- ==== Sys2Proof/Laws/Ops.lean ====
section
/-!
SUPPORT. One lemma per shared operation that says once everything it can do: what it answers where the cell exists
and where it does not, and, for the operand forms, the whole next state. Later proofs cite these and unfold none of
the operations.
-/
namespace Sys2Proof.Machine

/-! ### Data access -/

theorem raiseOutOfMemory_eq (s : State) : raiseOutOfMemory s = .next (s.afterOutOfMemory []) := by
  rw [← State.afterOutOfMemory_eq, State.withRecords_nil]; rfl

/-- A halt after recorded accesses. -/
theorem raiseOutOfMemory_withRecords (s : State) (l : List AccessRecord) :
    raiseOutOfMemory (s.withRecords l) = .next (s.afterOutOfMemory l) := rfl

theorem readCell_ok {a : Nat} {s : State} (h : s.hasCell a) (k : Byte → State → Result) :
    readCell a s k = k (s.cell a) (s.withRecords [⟨.read, a, s.cell a⟩]) := if_pos h

theorem readCell_missing {a : Nat} {s : State} (h : ¬ s.hasCell a) (k : Byte → State → Result) :
    readCell a s k = raiseOutOfMemory s := if_neg h

theorem writeCell_ok {a : Nat} {s : State} (v : Byte) (h : s.hasCell a) (k : State → Result) :
    writeCell a v s k = k ({ s with dm := Bank.write s.dm a v }.withRecords [⟨.write, a, v⟩]) := if_pos h

theorem writeCell_missing {a : Nat} {s : State} (v : Byte) (h : ¬ s.hasCell a) (k : State → Result) :
    writeCell a v s k = raiseOutOfMemory s := if_neg h

/-- If a read answers a next state, it read the cell and went on, or the cell is missing and it halted. -/
theorem readCell_cases {a : Nat} {s t : State} {k : Byte → State → Result} (h : readCell a s k = .next t) :
    (s.hasCell a ∧ k (s.cell a) (s.withRecords [⟨.read, a, s.cell a⟩]) = .next t) ∨
      (¬ s.hasCell a ∧ t = s.afterOutOfMemory []) := by
  by_cases ha : s.hasCell a
  · exact .inl ⟨ha, readCell_ok ha k ▸ h⟩
  · rw [readCell_missing ha, raiseOutOfMemory_eq] at h
    injection h with h
    exact .inr ⟨ha, h.symm⟩

/-- If a write answers a next state, it wrote the cell and went on, or the cell is missing and it halted. -/
theorem writeCell_cases {a : Nat} {v : Byte} {s t : State} {k : State → Result} (h : writeCell a v s k = .next t) :
    (s.hasCell a ∧ k ({ s with dm := Bank.write s.dm a v }.withRecords [⟨.write, a, v⟩]) = .next t) ∨
      (¬ s.hasCell a ∧ t = s.afterOutOfMemory []) := by
  by_cases ha : s.hasCell a
  · exact .inl ⟨ha, writeCell_ok v ha k ▸ h⟩
  · rw [writeCell_missing v ha, raiseOutOfMemory_eq] at h
    injection h with h
    exact .inr ⟨ha, h.symm⟩

/-! ### The state a completed access sequence leaves -/

/-- `s` after its one data write: cell `a` holds `v`, FLAGS hold `f`, these records are in the trace, and the pc has
moved on by one. -/
def State.afterWrite (s : State) (a : Nat) (v : Byte) (f : Byte) (records : List AccessRecord) : State :=
  { s.withRecords records with dm := Bank.write s.dm a v, flags := f, pc := s.pc + 1 }

@[simp] theorem State.afterWrite_params (s : State) (a : Nat) (v f : Byte) (l : List AccessRecord) :
    (s.afterWrite a v f l).params = s.params := rfl
@[simp] theorem State.afterWrite_dm (s : State) (a : Nat) (v f : Byte) (l : List AccessRecord) :
    (s.afterWrite a v f l).dm = Bank.write s.dm a v := rfl
@[simp] theorem State.afterWrite_pm (s : State) (a : Nat) (v f : Byte) (l : List AccessRecord) :
    (s.afterWrite a v f l).pm = s.pm := rfl
@[simp] theorem State.afterWrite_pc (s : State) (a : Nat) (v f : Byte) (l : List AccessRecord) :
    (s.afterWrite a v f l).pc = s.pc + 1 := rfl
@[simp] theorem State.afterWrite_flags (s : State) (a : Nat) (v f : Byte) (l : List AccessRecord) :
    (s.afterWrite a v f l).flags = f := rfl
@[simp] theorem State.afterWrite_status (s : State) (a : Nat) (v f : Byte) (l : List AccessRecord) :
    (s.afterWrite a v f l).status = s.status := rfl
@[simp] theorem State.afterWrite_traceEnable (s : State) (a : Nat) (v f : Byte) (l : List AccessRecord) :
    (s.afterWrite a v f l).traceEnable = s.traceEnable := rfl
@[simp] theorem State.afterWrite_trace (s : State) (a : Nat) (v f : Byte) (l : List AccessRecord) :
    (s.afterWrite a v f l).trace = (s.withRecords l).trace := rfl
@[simp] theorem State.afterWrite_output (s : State) (a : Nat) (v f : Byte) (l : List AccessRecord) :
    (s.afterWrite a v f l).output = s.output := rfl
@[simp] theorem State.afterWrite_input (s : State) (a : Nat) (v f : Byte) (l : List AccessRecord) :
    (s.afterWrite a v f l).input = s.input := rfl
@[simp] theorem State.afterWrite_freeIndex (s : State) (a : Nat) (v f : Byte) (l : List AccessRecord) :
    (s.afterWrite a v f l).freeIndex = s.freeIndex := rfl

theorem State.afterWrite_cell (s : State) (a : Nat) (v f : Byte) (l : List AccessRecord) (b : Nat) :
    (s.afterWrite a v f l).cell b = if b = a then v else s.cell b := Bank.read_write s.dm a b v

/-- A write that ends its instruction, after the records of earlier accesses. -/
theorem writeCell_finish {a : Nat} {s : State} (v : Byte) (l : List AccessRecord) (h : s.hasCell a) :
    writeCell a v (s.withRecords l) finish = .next (s.afterWrite a v s.flags (l ++ [⟨.write, a, v⟩])) := by
  rw [writeCell_ok v (s := s.withRecords l) h]
  have e : ({ s.withRecords l with dm := Bank.write (s.withRecords l).dm a v }.withRecords [⟨.write, a, v⟩]) =
      { s.withRecords (l ++ [⟨.write, a, v⟩]) with dm := Bank.write s.dm a v } := by
    rw [← State.withRecords_append]; rfl
  rw [e]; rfl

/-- An ALU write that ends its instruction, after the records of earlier accesses. -/
theorem writeAlu_ok {d : RegNum} {s : State} (r : AluResult) (l : List AccessRecord) (h : s.hasCell d.toNat) :
    writeAlu d r (s.withRecords l) =
      .next (s.afterWrite d.toNat r.value r.flags (l ++ [⟨.write, d.toNat, r.value⟩])) := by
  rw [writeAlu, writeReg, writeCell_ok r.value (s := s.withRecords l) h]
  have e : ({ s.withRecords l with dm := Bank.write (s.withRecords l).dm d.toNat r.value }.withRecords
      [⟨.write, d.toNat, r.value⟩]) =
      { s.withRecords (l ++ [⟨.write, d.toNat, r.value⟩]) with dm := Bank.write s.dm d.toNat r.value } := by
    rw [← State.withRecords_append]; rfl
  rw [e]; rfl

/-! ### Operand forms -/

/-- Everything form RR can do. -/
theorem combineRegs_eq (op : Byte → Byte → Byte → AluResult) (d r : RegNum) (s : State) :
    combineRegs op d r s =
      if s.hasCell d.toNat then
        if s.hasCell r.toNat then
          .next (s.afterWrite d.toNat (op s.flags (s.reg d) (s.reg r)).value (op s.flags (s.reg d) (s.reg r)).flags
            [⟨.read, d.toNat, s.reg d⟩, ⟨.read, r.toNat, s.reg r⟩,
              ⟨.write, d.toNat, (op s.flags (s.reg d) (s.reg r)).value⟩])
        else .next (s.afterOutOfMemory [⟨.read, d.toNat, s.reg d⟩])
      else .next (s.afterOutOfMemory []) := by
  unfold combineRegs readReg
  split
  · next hd =>
    rw [readCell_ok hd]
    split
    · next hr =>
      rw [readCell_ok (s := s.withRecords [⟨.read, d.toNat, s.cell d.toNat⟩]) hr, State.withRecords_append,
        writeAlu_ok _ _ hd]
      rfl
    · next hr =>
      rw [readCell_missing (s := s.withRecords [⟨.read, d.toNat, s.cell d.toNat⟩]) hr]
      rfl
  · next hd => rw [readCell_missing hd, raiseOutOfMemory_eq]

/-- Everything form R1 can do. -/
theorem modifyReg_eq (op : Byte → Byte → AluResult) (d : RegNum) (s : State) :
    modifyReg op d s =
      if s.hasCell d.toNat then
        .next (s.afterWrite d.toNat (op s.flags (s.reg d)).value (op s.flags (s.reg d)).flags
          [⟨.read, d.toNat, s.reg d⟩, ⟨.write, d.toNat, (op s.flags (s.reg d)).value⟩])
      else .next (s.afterOutOfMemory []) := by
  unfold modifyReg readReg
  split
  · next hd => rw [readCell_ok hd, writeAlu_ok _ _ hd]; rfl
  · next hd => rw [readCell_missing hd, raiseOutOfMemory_eq]

/-- Form RI with a read is form R1 with the immediate fixed. -/
theorem combineImm_eq (op : Byte → Byte → Byte → AluResult) (d : RegNum) (imm : Byte) (s : State) :
    combineImm op d imm s = modifyReg (fun f a => op f a imm) d s := rfl

/-- Everything Mov can do. -/
theorem execMov_eq (d r : RegNum) (s : State) :
    execMov d r s =
      if s.hasCell r.toNat then
        if s.hasCell d.toNat then
          .next (s.afterWrite d.toNat (s.reg r) s.flags [⟨.read, r.toNat, s.reg r⟩, ⟨.write, d.toNat, s.reg r⟩])
        else .next (s.afterOutOfMemory [⟨.read, r.toNat, s.reg r⟩])
      else .next (s.afterOutOfMemory []) := by
  unfold execMov readReg writeReg
  split
  · next hr =>
    rw [readCell_ok hr]
    split
    · next hd => rw [writeCell_finish _ _ hd]; rfl
    · next hd => rw [writeCell_missing _ (s := s.withRecords _) hd]; rfl
  · next hr => rw [readCell_missing hr, raiseOutOfMemory_eq]

/-- Everything a write of a register from no access can do (Ldi, and In after its byte is taken). -/
theorem writeReg_finish_eq (d : RegNum) (v : Byte) (s : State) :
    writeReg d v s finish =
      if s.hasCell d.toNat then .next (s.afterWrite d.toNat v s.flags [⟨.write, d.toNat, v⟩])
      else .next (s.afterOutOfMemory []) := by
  unfold writeReg
  split
  · next hd =>
    have h := writeCell_finish v [] hd
    rw [State.withRecords_nil] at h
    exact h
  · next hd => rw [writeCell_missing v hd, raiseOutOfMemory_eq]

/-- The model's window check is the rule's. -/
theorem outsideWindow_iff (p : Params) (ea : Nat) : outsideWindow p ea = true ↔ windowRejects p ea := by
  simp [outsideWindow, windowRejects]

theorem withDirect_rejected {k : DirectField} {s : State} (h : windowRejects s.params (effectiveAddress s.params k))
    (cont : Nat → Result) : withDirect k s cont = .next (s.afterOutOfMemory []) := by
  rw [withDirect, if_pos ((outsideWindow_iff _ _).mpr h), raiseOutOfMemory_eq]

theorem withDirect_ok {k : DirectField} {s : State} (h : ¬ windowRejects s.params (effectiveAddress s.params k))
    (cont : Nat → Result) : withDirect k s cont = cont (effectiveAddress s.params k) :=
  if_neg fun hw => h ((outsideWindow_iff _ _).mp hw)

/-- Everything Lds can do where the window check lets the address pass. -/
theorem execLds_eq (d : RegNum) (k : DirectField) (s : State)
    (h : ¬ windowRejects s.params (effectiveAddress s.params k)) :
    execLds d k s =
      if s.hasCell (effectiveAddress s.params k) then
        if s.hasCell d.toNat then
          .next (s.afterWrite d.toNat (s.cell (effectiveAddress s.params k)) s.flags
            [⟨.read, effectiveAddress s.params k, s.cell (effectiveAddress s.params k)⟩,
              ⟨.write, d.toNat, s.cell (effectiveAddress s.params k)⟩])
        else .next (s.afterOutOfMemory [⟨.read, effectiveAddress s.params k, s.cell (effectiveAddress s.params k)⟩])
      else .next (s.afterOutOfMemory []) := by
  rw [execLds, withDirect_ok h]
  split
  · next hea =>
    rw [readCell_ok hea]
    split
    · next hd => rw [writeReg, writeCell_finish _ _ hd]; rfl
    · next hd => rw [writeReg, writeCell_missing _ (s := s.withRecords _) hd]; rfl
  · next hea => rw [readCell_missing hea, raiseOutOfMemory_eq]

/-- Everything Sts can do where the window check lets the address pass. -/
theorem execSts_eq (k : DirectField) (d : RegNum) (s : State)
    (h : ¬ windowRejects s.params (effectiveAddress s.params k)) :
    execSts k d s =
      if s.hasCell d.toNat then
        if s.hasCell (effectiveAddress s.params k) then
          .next (s.afterWrite (effectiveAddress s.params k) (s.reg d) s.flags
            [⟨.read, d.toNat, s.reg d⟩, ⟨.write, effectiveAddress s.params k, s.reg d⟩])
        else .next (s.afterOutOfMemory [⟨.read, d.toNat, s.reg d⟩])
      else .next (s.afterOutOfMemory []) := by
  rw [execSts, withDirect_ok h, readReg]
  split
  · next hd =>
    rw [readCell_ok hd]
    split
    · next hea => rw [writeCell_finish _ _ hea]; rfl
    · next hea => rw [writeCell_missing _ (s := s.withRecords _) hea]; rfl
  · next hd => rw [readCell_missing hd, raiseOutOfMemory_eq]

/-! ### Ports -/

theorem hasInputDevice_iff (port : PortNum) : hasInputDevice port = true ↔ port.toNat = 0 := by
  simp only [hasInputDevice, beq_iff_eq]
  exact ⟨fun h => by simp [h], fun h => BitVec.eq_of_toNat_eq h⟩

theorem hasOutputDevice_iff (port : PortNum) : hasOutputDevice port = true ↔ port.toNat < 3 := by
  revert port; decide

/-- Everything Out can do. -/
theorem execOut_eq (port : PortNum) (d : RegNum) (s : State) :
    execOut port d s =
      if port.toNat < 3 then
        if s.hasCell d.toNat then .next ((s.withRecords [⟨.read, d.toNat, s.reg d⟩]).emit port (s.reg d)).advance
        else .next (s.afterOutOfMemory [])
      else .next s.advance := by
  unfold execOut
  by_cases hp : port.toNat < 3
  · rw [if_pos ((hasOutputDevice_iff port).mpr hp), if_pos hp, readReg]
    split
    · next hd => rw [readCell_ok hd]; rfl
    · next hd => rw [readCell_missing hd, raiseOutOfMemory_eq]
  · rw [if_neg fun h => hp ((hasOutputDevice_iff port).mp h), if_neg hp]
    rfl

/-- Everything In can do, by what the device has supplied. -/
theorem execInp_held {d : RegNum} {port : PortNum} {s : State} (hp : port.toNat = 0) (hi : s.input = []) :
    execInp d port s = .next s := by
  simp [execInp, (hasInputDevice_iff port).mpr hp, hi]

theorem execInp_taken {d : RegNum} {port : PortNum} {s : State} {v : Byte} {rest : List Byte}
    (hp : port.toNat = 0) (hi : s.input = v :: rest) (hd : s.hasCell d.toNat) :
    execInp d port s =
      .next ({ s with input := rest }.afterWrite d.toNat v s.flags [⟨.write, d.toNat, v⟩]) := by
  have hw := writeReg_finish_eq d v { s with input := rest }
  rw [if_pos (show ({ s with input := rest } : State).hasCell d.toNat from hd)] at hw
  simp only [execInp, (hasInputDevice_iff port).mpr hp, hi, if_true]
  rw [if_pos hd]
  exact hw

theorem execInp_missing {d : RegNum} {port : PortNum} {s : State} {v : Byte} {rest : List Byte}
    (hp : port.toNat = 0) (hi : s.input = v :: rest) (hd : ¬ s.hasCell d.toNat) :
    execInp d port s = .next ((s.drawFaultingInput rest).halt (.haltedFault .outOfMemory)) := by
  simp only [execInp, (hasInputDevice_iff port).mpr hp, hi, if_true]
  rw [if_neg hd]
  rfl

theorem execInp_other {d : RegNum} {port : PortNum} {s : State} (hp : port.toNat ≠ 0) :
    execInp d port s = .next s.advance := by
  rw [execInp, if_neg fun h => hp ((hasInputDevice_iff port).mp h)]
  rfl

/-! ### Branches and pc -/

theorem branchIf_eq (taken : Bool) (k : BranchOffset) (s : State) :
    branchIf taken k s = .next (if taken then s.jump (branchOffset k) else s.advance) := by
  cases taken <;> rfl

theorem State.advance_pc_toNat (s : State) : s.advance.pc.toNat = (s.pc.toNat + 1) % 65536 := by
  simp [BitVec.toNat_add]

/-! ### The step -/

theorem fetch_inside {s : State} (h : s.pc.toNat < s.params.progSize) :
    fetch s = some (Bank.read s.pm s.pc.toNat) := if_pos h

theorem fetch_outside {s : State} (h : ¬ s.pc.toNat < s.params.progSize) : fetch s = none := if_neg h

/-- Everything a step that answers a next state can be: the engine Running and the fetch outside program memory, or
an unknown word, or the decoded instruction. -/
theorem step_cases {s t : State} (h : step s = .next t) :
    s.status = .running ∧
      ((¬ s.pc.toNat < s.params.progSize ∧ t = s.halt (.haltedFault .outOfMemory)) ∨
       (s.pc.toNat < s.params.progSize ∧ (∃ w, decode (Bank.read s.pm s.pc.toNat) = .unknownCode w) ∧
          t = s.halt (.haltedFault .unknownCode)) ∨
       (s.pc.toNat < s.params.progSize ∧ ∃ i, decode (Bank.read s.pm s.pc.toNat) = .instr i ∧ exec i s = .next t)) := by
  unfold step at h
  split at h
  · next hs =>
    refine ⟨hs, ?_⟩
    unfold runningStep at h
    by_cases hp : s.pc.toNat < s.params.progSize
    · rw [fetch_inside hp] at h
      cases hd : decode (Bank.read s.pm s.pc.toNat) with
      | instr i =>
        simp only [hd] at h
        exact .inr (.inr ⟨hp, i, rfl, h⟩)
      | unknownCode w =>
        simp only [hd] at h
        injection h with h
        exact .inr (.inl ⟨hp, ⟨w, rfl⟩, h.symm⟩)
    · rw [fetch_outside hp] at h
      simp only [raiseOutOfMemory] at h
      injection h with h
      exact .inl ⟨hp, h.symm⟩
  · cases h
  · cases h

/-! ### Views -/

/-- What a view of any bank shows. -/
theorem viewBank_shows {w : Nat} (m : Bank w) (size a n : Nat) :
    ViewShows (viewBank m size a n) (a + n ≤ size) n (fun j => Bank.read m (a + j)) :=
  ⟨fun h => ⟨_, if_pos h, by simp, fun j hj => by simp [hj]⟩, fun h => if_neg h⟩

/-- What a pair view shows where both registers exist. -/
theorem viewPair_shows {s : State} {hi lo : RegNum} (hhi : s.hasCell hi.toNat) (hlo : s.hasCell lo.toNat) :
    PairShows (viewPair hi lo s) (s.reg hi) (s.reg lo) := by
  refine ⟨_, if_pos ⟨hhi, hlo⟩, ?_⟩
  rw [BitVec.toNat_append, ← Nat.shiftLeft_add_eq_or_of_lt (s.reg lo).isLt, Nat.shiftLeft_eq]
  omega

/-- A pair view with its high register missing. -/
theorem viewPair_none {s : State} {hi lo : RegNum} (h : ¬ s.hasCell hi.toNat) : viewPair hi lo s = none :=
  if_neg fun g => h g.1

end Sys2Proof.Machine
end

