-- ==== Sys2Proof/Laws/Flags.lean ====
section
/-!
SUPPORT. The bits of the flag computations (spec/10_state.md R28 to R30) and the results on natural numbers of the
ALU operations (spec/40_alu_register.md, 41, 42), each said once.
-/
namespace Sys2Proof.Machine

theorem flagAt_withCZN_carry (f : Byte) (c z n : Bool) : flagAt (withCZN f c z n) 0 = c := by
  cases c <;> cases z <;> cases n <;> simp only [flagAt, withCZN, BitVec.getLsbD_append] <;> rfl

theorem flagAt_withCZN_zero (f : Byte) (c z n : Bool) : flagAt (withCZN f c z n) 1 = z := by
  cases c <;> cases z <;> cases n <;> simp only [flagAt, withCZN, BitVec.getLsbD_append] <;> rfl

theorem flagAt_withCZN_negative (f : Byte) (c z n : Bool) : flagAt (withCZN f c z n) 2 = n := by
  cases c <;> cases z <;> cases n <;> simp only [flagAt, withCZN, BitVec.getLsbD_append] <;> rfl

theorem flagPadding_withCZN (f : Byte) (c z n : Bool) : flagPadding (withCZN f c z n) = flagPadding f := by
  apply BitVec.eq_of_getLsbD_eq
  intro i hi
  simp only [flagPadding, withCZN, BitVec.getLsbD_extractLsb', BitVec.getLsbD_append]
  have h0 : ¬ (3 + i < 1) := by omega
  have h1 : ¬ (3 + i - 1 < 1) := by omega
  have h2 : ¬ (3 + i - 1 - 1 < 1) := by omega
  simp only [h0, h1, h2, if_false]
  have h3 : 3 + i - 1 - 1 - 1 = i := by omega
  rw [h3]
  simp [hi]

/-- Zero and negative as functions of the numeric result. -/
theorem zeroFlag_eq (res : Byte) : zeroFlag res = decide (res.toNat = 0) := by
  simp only [zeroFlag, decide_eq_decide]
  exact ⟨fun h => by simp [h], fun h => BitVec.eq_of_toNat_eq h⟩

theorem negativeFlag_eq (res : Byte) : negativeFlag res = res.toNat.testBit 7 := rfl

theorem sumResult_value (f : Byte) (raw : Nat) : (sumResult f raw).value.toNat = raw % 256 := by
  simp [sumResult]

theorem differenceResult_value (f : Byte) (raw : Int) : (differenceResult f raw).value.toNat = (raw % 256).toNat := by
  simp [differenceResult]

theorem aluLsr_value (f a : Byte) : (aluLsr f a).value.toNat = a.toNat / 2 := by
  revert a
  simp only [aluLsr]
  decide

/-- The four facts of an ALU result whose flags are C, Z, N. -/
theorem flagsCZN_spec (s t : State) (c : Bool) (res : Byte) (h : t.flags = flagsCZN s.flags c res) :
    FlagsWritten s t c (decide (res.toNat = 0)) (res.toNat.testBit 7) := by
  rw [FlagsWritten, h, flagsCZN, flagAt_withCZN_carry, flagAt_withCZN_zero, flagAt_withCZN_negative,
    flagPadding_withCZN, zeroFlag_eq, negativeFlag_eq]
  exact ⟨rfl, rfl, rfl, rfl⟩

end Sys2Proof.Machine
end

