-- ==== Sys2Proof/Laws/Exec.lean ====
section
/-!
SUPPORT. Everything an instruction can do, said once: whenever `exec` answers a next state, that state is one of the
few of `ExecEffect`. Invariants and whole-machine rules are a case analysis over it.
-/
namespace Sys2Proof.Machine

/-- What `exec i` can make of `s`. -/
inductive ExecEffect (i : Instr) (s : State) : State → Prop where
  /-- In from port 0 with nothing supplied (46_io.md R177). -/
  | held (hi : s.input = []) : ExecEffect i s s
  /-- Only the pc is written. -/
  | pcOnly (pc : Word) : ExecEffect i s { s with pc := pc }
  /-- Break (45_nop_break.md R172). -/
  | broke (hi : i = .brk) : ExecEffect i s (s.halt .haltedBreak)
  /-- OutOfMemory after some accesses (60_exceptions.md R214). -/
  | missing (l : List AccessRecord) (hl : ∀ r ∈ l, s.hasCell r.addr) : ExecEffect i s (s.afterOutOfMemory l)
  /-- OutOfMemory of an In from port 0 with a byte waiting (93_implementation_defined.md U9). -/
  | inputMissing (v : Byte) (rest : List Byte) (hi : s.input = v :: rest) :
      ExecEffect i s ((s.drawFaultingInput rest).halt (.haltedFault .outOfMemory))
  /-- One data cell and FLAGS are written. -/
  | wrote (a : Nat) (v f : Byte) (l : List AccessRecord) (ha : s.hasCell a) (hl : ∀ r ∈ l, s.hasCell r.addr)
      (hc : writesCarry i = false → flagAt f 0 = flagAt s.flags 0)
      (hzn : writesZeroNegative i = false → flagAt f 1 = flagAt s.flags 1 ∧ flagAt f 2 = flagAt s.flags 2)
      (hp : flagPadding f = flagPadding s.flags) : ExecEffect i s (s.afterWrite a v f l)
  /-- In from port 0 takes a byte and writes it. -/
  | took (a : Nat) (v : Byte) (rest : List Byte) (l : List AccessRecord) (hi : s.input = v :: rest)
      (ha : s.hasCell a) (hl : ∀ r ∈ l, s.hasCell r.addr) :
      ExecEffect i s ({ s with input := rest }.afterWrite a v s.flags l)
  /-- Out to a port with a device. -/
  | emitted (port : PortNum) (v : Byte) (l : List AccessRecord) (hport : port.toNat < 3)
      (hl : ∀ r ∈ l, s.hasCell r.addr) : ExecEffect i s ((s.withRecords l).emit port v).advance

variable {i : Instr} {s t : State}

/-- A move keeps FLAGS, so it meets the flag premises of `wrote` whatever the instruction. -/
theorem ExecEffect.moved (a : Nat) (v : Byte) (l : List AccessRecord) (ha : s.hasCell a)
    (hl : ∀ r ∈ l, s.hasCell r.addr) : ExecEffect i s (s.afterWrite a v s.flags l) :=
  .wrote a v s.flags l ha hl (fun _ => rfl) (fun _ => ⟨rfl, rfl⟩) rfl

/-- Form RR. -/
theorem ExecEffect.of_combineRegs {op : Byte → Byte → Byte → AluResult} {d r : RegNum}
    (hop : ∀ f a b, (writesCarry i = false → flagAt (op f a b).flags 0 = flagAt f 0) ∧
      (writesZeroNegative i = true) ∧ flagPadding (op f a b).flags = flagPadding f)
    (h : combineRegs op d r s = .next t) : ExecEffect i s t := by
  rw [combineRegs_eq] at h
  obtain ⟨hc, hz, hp⟩ := hop s.flags (s.reg d) (s.reg r)
  split at h
  · next hd =>
    split at h
    · next hr =>
      injection h with h
      subst h
      exact .wrote _ _ _ _ hd (by simp [hd, hr]) hc (by simp [hz]) hp
    · injection h with h
      subst h
      exact .missing _ (by simp [hd])
  · injection h with h
    subst h
    exact .missing _ (by simp)

/-- Forms R1 and RI. -/
theorem ExecEffect.of_modifyReg {op : Byte → Byte → AluResult} {d : RegNum}
    (hop : ∀ f a, (writesCarry i = false → flagAt (op f a).flags 0 = flagAt f 0) ∧
      (writesZeroNegative i = true) ∧ flagPadding (op f a).flags = flagPadding f)
    (h : modifyReg op d s = .next t) : ExecEffect i s t := by
  rw [modifyReg_eq] at h
  obtain ⟨hc, hz, hp⟩ := hop s.flags (s.reg d)
  split at h
  · next hd =>
    injection h with h
    subst h
    exact .wrote _ _ _ _ hd (by simp [hd]) hc (by simp [hz]) hp
  · injection h with h
    subst h
    exact .missing _ (by simp)

/-- Branches and everything that only falls through. -/
theorem ExecEffect.of_branchIf {taken : Bool} {k : BranchOffset} (h : branchIf taken k s = .next t) :
    ExecEffect i s t := by
  rw [branchIf_eq] at h
  injection h with h
  subst h
  split <;> exact .pcOnly _

theorem flagsZN_carry (f res : Byte) : flagAt (flagsZN f res) 0 = flagAt f 0 := flagAt_withCZN_carry _ _ _ _

theorem ExecEffect.of_lds {d : RegNum} {k : DirectField} (h : execLds d k s = .next t) : ExecEffect i s t := by
  by_cases hw : windowRejects s.params (effectiveAddress s.params k)
  · rw [execLds, withDirect_rejected hw] at h
    injection h with h
    subst h
    exact .missing _ (by simp)
  · rw [execLds_eq _ _ _ hw] at h
    split at h
    · next hea =>
      split at h
      · next hd =>
        injection h with h
        subst h
        exact .moved _ _ _ hd (by simp [hea, hd])
      · injection h with h
        subst h
        exact .missing _ (by simp [hea])
    · injection h with h
      subst h
      exact .missing _ (by simp)

theorem ExecEffect.of_sts {d : RegNum} {k : DirectField} (h : execSts k d s = .next t) : ExecEffect i s t := by
  by_cases hw : windowRejects s.params (effectiveAddress s.params k)
  · rw [execSts, withDirect_rejected hw] at h
    injection h with h
    subst h
    exact .missing _ (by simp)
  · rw [execSts_eq _ _ _ hw] at h
    split at h
    · next hd =>
      split at h
      · next hea =>
        injection h with h
        subst h
        exact .moved _ _ _ hea (by simp [hea, hd])
      · injection h with h
        subst h
        exact .missing _ (by simp [hd])
    · injection h with h
      subst h
      exact .missing _ (by simp)

theorem ExecEffect.of_inp {d : RegNum} {port : PortNum} (h : execInp d port s = .next t) : ExecEffect i s t := by
  by_cases hp : port.toNat = 0
  · cases hi : s.input with
    | nil =>
      rw [execInp_held hp hi] at h
      injection h with h
      subst h
      exact .held hi
    | cons v rest =>
      by_cases hd : s.hasCell d.toNat
      · rw [execInp_taken hp hi hd] at h
        injection h with h
        subst h
        exact .took _ _ _ _ hi hd (by simp [hd])
      · rw [execInp_missing hp hi hd] at h
        injection h with h
        subst h
        exact .inputMissing v rest hi
  · rw [execInp_other hp] at h
    injection h with h
    subst h
    exact .pcOnly _

theorem ExecEffect.of_out {d : RegNum} {port : PortNum} (h : execOut port d s = .next t) : ExecEffect i s t := by
  rw [execOut_eq] at h
  split at h
  · next hp =>
    split at h
    · next hd =>
      injection h with h
      subst h
      exact .emitted _ _ _ hp (by simp [hd])
    · injection h with h
      subst h
      exact .missing _ (by simp)
  · injection h with h
    subst h
    exact .pcOnly _

/-- The inversion of `exec`. -/
theorem exec_effect (h : exec i s = .next t) : ExecEffect i s t := by
  have hlogic : ∀ (f res : Byte), flagAt (flagsZN f res) 0 = flagAt f 0 ∧
      flagPadding (flagsZN f res) = flagPadding f := fun f res =>
    ⟨flagsZN_carry f res, flagPadding_withCZN _ _ _ _⟩
  cases i with
  | nop => injection h with h; subst h; exact .pcOnly _
  | add d r => exact .of_combineRegs (op := aluAdd) (fun _ _ _ => ⟨nofun, rfl, flagPadding_withCZN _ _ _ _⟩) h
  | sub d r => exact .of_combineRegs (op := aluSub) (fun _ _ _ => ⟨nofun, rfl, flagPadding_withCZN _ _ _ _⟩) h
  | adc d r => exact .of_combineRegs (op := aluAdc) (fun _ _ _ => ⟨nofun, rfl, flagPadding_withCZN _ _ _ _⟩) h
  | and d r => exact .of_combineRegs (op := aluAnd) (fun _ _ _ => ⟨fun _ => (hlogic _ _).1, rfl, (hlogic _ _).2⟩) h
  | eor d r => exact .of_combineRegs (op := aluEor) (fun _ _ _ => ⟨fun _ => (hlogic _ _).1, rfl, (hlogic _ _).2⟩) h
  | or d r => exact .of_combineRegs (op := aluOr) (fun _ _ _ => ⟨fun _ => (hlogic _ _).1, rfl, (hlogic _ _).2⟩) h
  | mov d r =>
    rw [exec, execMov_eq] at h
    split at h
    · next hr =>
      split at h
      · next hd =>
        injection h with h
        subst h
        exact .moved _ _ _ hd (by simp [hr, hd])
      · injection h with h
        subst h
        exact .missing _ (by simp [hr])
    · injection h with h
      subst h
      exact .missing _ (by simp)
  | subi d imm => exact .of_modifyReg (op := fun f a => aluSub f a imm) (fun _ _ => ⟨nofun, rfl, flagPadding_withCZN _ _ _ _⟩) h
  | lsr d => exact .of_modifyReg (op := aluLsr) (fun _ _ => ⟨nofun, rfl, flagPadding_withCZN _ _ _ _⟩) h
  | brk => injection h with h; subst h; exact .broke rfl
  | lds d k => exact .of_lds h
  | sts k d => exact .of_sts h
  | inp d port => exact .of_inp h
  | out port d => exact .of_out h
  | rjmp k => injection h with h; subst h; exact .pcOnly _
  | ldi d imm =>
    rw [exec, execLdi, writeReg_finish_eq] at h
    split at h
    · next hd =>
      injection h with h
      subst h
      exact .moved _ _ _ hd (by simp [hd])
    · injection h with h
      subst h
      exact .missing _ (by simp)
  | brbs f k => exact .of_branchIf h
  | brbc f k => exact .of_branchIf h

end Sys2Proof.Machine
end

