-- ==== Sys2Proof/Laws/PerInstr.lean ====
section
/-!
SUPPORT. The per-instruction family EncodeInRow: the word of an instruction matches its own row of the opcode map
(spec/30_encoding.md R90), proved from the format it is written in (R81 to R88).
-/
namespace Sys2Proof.Laws

/-! ### The opcode bits of a format, and nothing else, pass its mask -/

theorem encodeRR_opcode (o : BitVec 6) (d r : RegNum) : encodeRR o d r &&& 0xFC00 = o ++ (0 : BitVec 10) := by
  apply BitVec.eq_of_getLsbD_eq
  intro i hi
  simp only [encodeRR, BitVec.getLsbD_and, BitVec.getLsbD_append, BitVec.getLsbD_extractLsb']
  interval_cases i <;> simp

theorem encodeRI_opcode (o : BitVec 4) (d : RegNum) (imm : Byte) :
    encodeRI o d imm &&& 0xF000 = o ++ (0 : BitVec 12) := by
  apply BitVec.eq_of_getLsbD_eq
  intro i hi
  simp only [encodeRI, BitVec.getLsbD_and, BitVec.getLsbD_append, BitVec.getLsbD_extractLsb']
  interval_cases i <;> simp

theorem encodeDM_opcode (o : BitVec 5) (d : RegNum) (k : DirectField) :
    encodeDM o d k &&& 0xF800 = o ++ (0 : BitVec 11) := by
  apply BitVec.eq_of_getLsbD_eq
  intro i hi
  simp only [encodeDM, BitVec.getLsbD_and, BitVec.getLsbD_append, BitVec.getLsbD_extractLsb']
  interval_cases i <;> simp

theorem encodeIO_opcode (o : BitVec 5) (port : PortNum) (d : RegNum) :
    encodeIO o port d &&& 0xF800 = o ++ (0 : BitVec 11) := by
  apply BitVec.eq_of_getLsbD_eq
  intro i hi
  simp only [encodeIO, BitVec.getLsbD_and, BitVec.getLsbD_append, BitVec.getLsbD_extractLsb']
  interval_cases i <;> simp

theorem encodeBR_opcode (o : BitVec 6) (s : FlagIndex) (k : BranchOffset) :
    encodeBR o s k &&& 0xFC00 = o ++ (0 : BitVec 10) := by
  apply BitVec.eq_of_getLsbD_eq
  intro i hi
  simp only [encodeBR, BitVec.getLsbD_and, BitVec.getLsbD_append]
  interval_cases i <;> simp

theorem encodeLsr_opcode (d : RegNum) : encode (.lsr d) &&& 0xFE0F = 0x9406 := by
  revert d; decide

theorem encodeRjmp_opcode (k : JumpOffset) : encode (.rjmp k) &&& 0xF000 = 0xC000 := by
  apply BitVec.eq_of_getLsbD_eq
  intro i hi
  simp only [encode, BitVec.getLsbD_and, BitVec.getLsbD_append]
  interval_cases i <;> simp

namespace EncodeInRow

/-- The word of the instruction matches the instruction's own entry of the Repertoire. -/
def Statement (i : Instr) : Prop := i.opcode.matcher.holds (encode i) = true

theorem nop : Statement .nop := rfl
theorem add (d r : RegNum) : Statement (.add d r) := by
  simp only [Statement, Instr.opcode, Opcode.matcher, Matcher.holds, encode, encodeRR_opcode]; rfl
theorem sub (d r : RegNum) : Statement (.sub d r) := by
  simp only [Statement, Instr.opcode, Opcode.matcher, Matcher.holds, encode, encodeRR_opcode]; rfl
theorem adc (d r : RegNum) : Statement (.adc d r) := by
  simp only [Statement, Instr.opcode, Opcode.matcher, Matcher.holds, encode, encodeRR_opcode]; rfl
theorem and (d r : RegNum) : Statement (.and d r) := by
  simp only [Statement, Instr.opcode, Opcode.matcher, Matcher.holds, encode, encodeRR_opcode]; rfl
theorem eor (d r : RegNum) : Statement (.eor d r) := by
  simp only [Statement, Instr.opcode, Opcode.matcher, Matcher.holds, encode, encodeRR_opcode]; rfl
theorem or (d r : RegNum) : Statement (.or d r) := by
  simp only [Statement, Instr.opcode, Opcode.matcher, Matcher.holds, encode, encodeRR_opcode]; rfl
theorem mov (d r : RegNum) : Statement (.mov d r) := by
  simp only [Statement, Instr.opcode, Opcode.matcher, Matcher.holds, encode, encodeRR_opcode]; rfl
theorem subi (d : RegNum) (imm : Byte) : Statement (.subi d imm) := by
  simp only [Statement, Instr.opcode, Opcode.matcher, Matcher.holds, encode, encodeRI_opcode]; rfl
theorem lsr (d : RegNum) : Statement (.lsr d) := by
  simp only [Statement, Instr.opcode, Opcode.matcher, Matcher.holds, encodeLsr_opcode]; rfl
theorem brk : Statement .brk := rfl
theorem lds (d : RegNum) (k : DirectField) : Statement (.lds d k) := by
  simp only [Statement, Instr.opcode, Opcode.matcher, Matcher.holds, encode, encodeDM_opcode]; rfl
theorem sts (k : DirectField) (d : RegNum) : Statement (.sts k d) := by
  simp only [Statement, Instr.opcode, Opcode.matcher, Matcher.holds, encode, encodeDM_opcode]; rfl
theorem inp (d : RegNum) (port : PortNum) : Statement (.inp d port) := by
  simp only [Statement, Instr.opcode, Opcode.matcher, Matcher.holds, encode, encodeIO_opcode]; rfl
theorem out (port : PortNum) (d : RegNum) : Statement (.out port d) := by
  simp only [Statement, Instr.opcode, Opcode.matcher, Matcher.holds, encode, encodeIO_opcode]; rfl
theorem rjmp (k : JumpOffset) : Statement (.rjmp k) := by
  simp only [Statement, Instr.opcode, Opcode.matcher, Matcher.holds, encodeRjmp_opcode]; rfl
theorem ldi (d : RegNum) (imm : Byte) : Statement (.ldi d imm) := by
  simp only [Statement, Instr.opcode, Opcode.matcher, Matcher.holds, encode, encodeRI_opcode]; rfl
theorem brbs (s : FlagIndex) (k : BranchOffset) : Statement (.brbs s k) := by
  simp only [Statement, Instr.opcode, Opcode.matcher, Matcher.holds, encode, encodeBR_opcode]; rfl
theorem brbc (s : FlagIndex) (k : BranchOffset) : Statement (.brbc s k) := by
  simp only [Statement, Instr.opcode, Opcode.matcher, Matcher.holds, encode, encodeBR_opcode]; rfl

end EncodeInRow

end Sys2Proof.Laws
end

