-- ==== Sys2Proof/Tests/Slice0.lean ====
section
/-!
SUPPORT. Tests whose expected results stand in spec/95_test_vectors.md or in the rule named (never the model's own
answer), the smoke test of WellFormed, and one witness for the hypotheses of each obligation that has any.
-/
namespace Sys2Proof.Tests

open Sys2Proof Sys2Proof.Machine

/-! ### Helpers -/

/-- A machine of `size` data cells and 32 program cells, the sizes of the vectors (95) being 128 and 32. -/
def sized (size : Nat) : Params := { Params.default with dataSize := size, progSize := 32 }

/-- A constructed machine with these cells, flags and pc. -/
def start (size : Nat) (cells : List (Nat × Byte)) (flags : Byte) (pc : Word) : State :=
  { State.construct (sized size) with
    dm := cells.foldl (fun m c => Bank.write m c.1 c.2) [], flags := flags, pc := pc }

/-- A next state that passes a check. -/
def nextIs (r : Result) (ok : State → Bool) : Bool :=
  match r with
  | .next t => ok t
  | .fault _ => false
  | .refused _ => false

/-- One step on a word placed at the pc. -/
def ran (w : Nat) (s : State) (ok : State → Bool) : Bool := nextIs (step (s.withFetchWord 16 w)) ok

/-- Registers 16 and FLAGS after one step. -/
def gives (w : Nat) (s : State) (value flags : Byte) : Bool :=
  ran w s fun t => t.reg 16 == value && t.flags == flags && t.pc == s.pc + 1 && t.status == .running

/-! ### Well-formedness (10_state.md R23) -/

theorem test_wf_refuses_subi_r15 : (Instr.subi 15 0).wf = false := by decide
theorem test_wf_refuses_ldi_r0 : (Instr.ldi 0 0).wf = false := by decide
theorem test_wf_refuses_lds_r15 : (Instr.lds 15 0).wf = false := by decide
theorem test_wf_refuses_sts_r15 : (Instr.sts 0 15).wf = false := by decide
theorem test_wf_admits_r16 : (Instr.subi 16 0).wf && (Instr.ldi 16 0).wf && (Instr.lds 16 0).wf && (Instr.sts 0 16).wf &&
    (Instr.mov 15 16).wf = true := by decide

/-! ### Decoding, one word at least for each constructor (95 section 2.1, 40 to 46) -/

theorem test_decode_nop : decode 0b0000000000000000 = .instr .nop := by decide
theorem test_decode_add : decode 0b0000111000001111 = .instr (.add 0 31) ∧ decode 0x0DF0 = .instr (.add 31 0) := by decide
theorem test_decode_sub : decode 0b0001101100000001 = .instr (.sub 16 17) := by decide
theorem test_decode_adc : decode 0b0001111100000001 = .instr (.adc 16 17) := by decide
theorem test_decode_and : decode 0b0010001100000001 = .instr (.and 16 17) := by decide
theorem test_decode_eor : decode 0b0010010001010101 = .instr (.eor 5 5) ∧ decode 0x2701 = .instr (.eor 16 17) := by decide
theorem test_decode_or : decode 0b0010101100000001 = .instr (.or 16 17) := by decide
theorem test_decode_mov : decode 0b0010111011110000 = .instr (.mov 15 16) := by decide
theorem test_decode_subi : decode 0b0101000000000001 = .instr (.subi 16 1) ∧ decode 0x5FFF = .instr (.subi 31 0xFF) := by decide
theorem test_decode_lsr : decode 0b1001010111110110 = .instr (.lsr 31) ∧ decode 0x9406 = .instr (.lsr 0) := by decide
theorem test_decode_brk : decode 0b1001010110011000 = .instr .brk := by decide
theorem test_decode_lds : decode 0b1010001000000000 = .instr (.lds 16 0x10) ∧ decode 0xA400 = .instr (.lds 16 0x20) ∧
    decode 0xA110 = .instr (.lds 17 0x40) ∧ decode 0xA7FF = .instr (.lds 31 0x7F) := by decide
theorem test_decode_sts : decode 0b1010110101000101 = .instr (.sts 0x65 20) ∧ decode 0xAC00 = .instr (.sts 0x20 16) := by decide
theorem test_decode_inp : decode 0b1011011111111111 = .instr (.inp 31 0x3F) ∧ decode 0xB100 = .instr (.inp 16 0) := by decide
theorem test_decode_out : decode 0b1011111100001111 = .instr (.out 0x3F 16) ∧ decode 0xB802 = .instr (.out 2 0) := by decide
theorem test_decode_rjmp : decode 0b1100100000000000 = .instr (.rjmp (-2048)) ∧ decode 0xC7FF = .instr (.rjmp 2047) := by decide
theorem test_decode_ldi : decode 0b1110000011110000 = .instr (.ldi 31 0) ∧ decode 0xEA87 = .instr (.ldi 24 0xA7) := by decide
theorem test_decode_brbs : decode 0b1111000111111000 = .instr (.brbs 0 63) ∧ decode 0xF3E9 = .instr (.brbs 1 (-3)) := by decide
theorem test_decode_brbc : decode 0b1111011000000010 = .instr (.brbc 2 (-64)) ∧ decode 0xF7FF = .instr (.brbc 7 (-1)) := by decide

/-- Words that must be refused (95 section 2.1, 30_encoding.md R96). -/
theorem test_decode_refuses :
    [0x0001, 0x0BFF, 0x0400, 0x1400, 0x3000, 0x7000, 0x8000, 0x9400, 0x9405, 0x9407, 0x9508, 0x9588, 0x9599, 0x9597,
      0x940C, 0xD000, 0xF800, 0xFFFF].all (fun w => decode w == .unknownCode w) = true := by decide

/-- Encoding back, on the words of 95 with every field in use. -/
theorem test_encode : encode (.sts 0x65 20) = 0xAD45 ∧ encode (.add 0 31) = 0x0E0F ∧ encode (.ldi 24 0xA7) = 0xEA87 ∧
    encode (.brbc 2 (-64)) = 0xF602 ∧ encode (.out 0x3F 16) = 0xBF0F := by decide

theorem test_decodeTableWord : decodeTableWord 16 0x1F01 = some (.adc 16 17) ∧ decodeTableWord 16 0x9588 = none := by decide

/-! ### One step of each instruction (95 sections 2.2 to 2.8) -/

theorem test_add_wraps : gives 0x0F01 (start 128 [(16, 0xC8), (17, 0x64)] 0 0) 0x2C 0b001 = true := by decide
theorem test_add_no_legacy_threshold : gives 0x0F01 (start 128 [(16, 0x0F), (17, 0xF0)] 1 0) 0xFF 0b100 = true := by decide
theorem test_adc_takes_carry : gives 0x1F01 (start 128 [(16, 0xFE), (17, 0x01)] 1 0) 0x00 0b011 = true := by decide
theorem test_adc_without_carry : gives 0x1F01 (start 128 [(16, 0xFE), (17, 0x01)] 0 0) 0xFF 0b100 = true := by decide
theorem test_sub_borrows : gives 0x1B01 (start 128 [(16, 3), (17, 5)] 0 0) 0xFE 0b101 = true := by decide
theorem test_sub_sign_change : gives 0x1B01 (start 128 [(16, 0x80), (17, 1)] 7 0) 0x7F 0b000 = true := by decide
theorem test_and_keeps_carry : gives 0x2301 (start 128 [(16, 0xF0), (17, 0x0F)] 1 0) 0x00 0b011 = true := by decide
theorem test_or_keeps_carry : gives 0x2B01 (start 128 [(16, 0xCC), (17, 0xAA)] 0 0) 0xEE 0b100 = true := by decide
theorem test_eor : gives 0x2701 (start 128 [(16, 0xCC), (17, 0xAA)] 1 0) 0x66 0b001 = true := by decide
theorem test_mov_writes_no_flag : gives 0x2F01 (start 128 [(16, 9)] 0b101 0) 0x00 0b101 = true := by decide
theorem test_subi_borrows : gives 0x5001 (start 128 [] 0 0) 0xFF 0b101 = true := by decide
theorem test_ldi_writes_no_flag : gives 0xE000 (start 128 [(16, 9)] 0 0) 0x00 0 = true := by decide
theorem test_lsr_no_rotate : gives 0x9506 (start 128 [(16, 1)] 1 0) 0x00 0b011 = true := by decide
theorem test_lsr : gives 0x9506 (start 128 [(16, 0x55)] 0 0) 0x2A 0b001 = true := by decide
theorem test_add_same_register : ran 0x0C55 (start 128 [(5, 0x81)] 0 0) (fun t => t.reg 5 == 2 && t.flags == 1) = true := by decide
/-- M2, M9. -/
theorem test_lds : ran 0xA110 (start 128 [(0x40, 0x2A)] 7 0) (fun t => t.reg 17 == 0x2A && t.flags == 7) = true := by decide
/-- M1, M4: an address below 32 is a register. -/
theorem test_sts : ran 0xA900 (start 128 [(16, 0x2A)] 0 0) (fun t => t.cell 0x40 == 0x2A && t.reg 16 == 0x2A) = true ∧
    ran 0xA805 (start 128 [(16, 7)] 0 0) (fun t => t.reg 5 == 7) = true := by decide
/-- M7: no such cell: halted, nothing written, pc unchanged. -/
theorem test_sts_missing_cell : ran 0xAD45 (start 100 [(20, 9)] 0 5)
    (fun t => t.status == .haltedFault .outOfMemory && t.cell 101 == 0 && t.pc == 5) = true := by decide
/-- M5, M6: the window check. -/
theorem test_window_check :
    ran 0xA805 { start 128 [(16, 7)] 0 0 with params := { sized 128 with windowCheck := true } }
      (fun t => t.status == .haltedFault .outOfMemory && t.reg 5 == 0 && t.pc == 0) = true ∧
    ran 0xA900 { start 128 [(16, 7)] 0 0 with params := { sized 128 with windowCheck := true } }
      (fun t => t.status == .running && t.cell 0x40 == 7) = true := by decide
theorem test_rjmp : ran 0xCFFD (start 128 [] 0 5) (fun t => t.pc == 3) = true ∧
    ran 0xCFFE (start 128 [] 0 0) (fun t => t.pc == 0xFFFF) = true := by decide
theorem test_brbs : ran 0xF3E9 (start 128 [] 0b010 4) (fun t => t.pc == 2) = true ∧
    ran 0xF3E9 (start 128 [] 0 4) (fun t => t.pc == 5) = true := by decide
theorem test_brbc : ran 0xF602 (start 128 [] 0 70) (fun t => t.pc == 7) = true ∧
    ran 0xF602 (start 128 [] 0b100 70) (fun t => t.pc == 71) = true := by decide
theorem test_nop_wraps_pc : ran 0x0000 (start 128 [] 0 0xFFFF) (fun t => t.pc == 0) = true := by decide
theorem test_brk : ran 0x9598 (start 128 [(16, 9)] 0b101 3)
    (fun t => t.status == .haltedBreak && t.pc == 3 && t.reg 16 == 9 && t.flags == 0b101) = true := by decide
theorem test_inp : ran 0xB100 { start 128 [] 0 0 with input := [0x41, 0x42] }
    (fun t => t.reg 16 == 0x41 && t.input == [0x42] && t.pc == 1) = true ∧
    ran 0xB101 (start 128 [(16, 0x55)] 0 0) (fun t => t.reg 16 == 0x55 && t.pc == 1) = true := by decide
theorem test_inp_held : ran 0xB100 (start 128 [] 0 0) (fun t => t.status == .running && t.pc == 0) = true := by decide
theorem test_out : ran 0xB901 (start 128 [(16, 0x41)] 0 0) (fun t => t.output == [⟨1, 0x41⟩] && t.pc == 1) = true ∧
    ran 0xB903 (start 128 [(16, 0x41)] 0 0) (fun t => t.output == [] && t.pc == 1) = true := by decide
/-- E3, E7. -/
theorem test_unknown_code : ran 0xFFFF (start 128 [] 0 0)
    (fun t => t.status == .haltedFault .unknownCode && t.pc == 0) = true := by decide
theorem test_missing_register : ran 0xE005 (start 16 [] 0 0)
    (fun t => t.status == .haltedFault .outOfMemory && t.pc == 0 && t.dm == []) = true := by decide
/-- Section 2.10: the Add of S7. -/
theorem test_trace_of_add : ran 0x0F01 { start 128 [(16, 5), (17, 3)] 0 0 with traceEnable := true }
    (fun t => t.trace == [⟨.read, 16, 5⟩, ⟨.read, 17, 3⟩, ⟨.write, 16, 8⟩]) = true := by decide
/-- S4. -/
theorem test_pairs : pairX (start 128 [(26, 0x34), (27, 0x12)] 0 0) = some 0x1234 ∧
    pairY (start 128 [(28, 0xFF)] 0 0) = some 0x00FF ∧ pairZ (start 128 [(31, 0x80)] 0 0) = some 0x8000 := by decide
/-- E6. -/
theorem test_install_too_long : (installProgram [1, 2, 3]
    (State.construct { sized 128 with progSize := 2 })).2 = .outOfMemory := by decide
/-- M10: the default DirectAddr. -/
theorem test_direct_address : effectiveAddress Params.default 0x40 = 0x40 ∧ effectiveAddress Params.default 0x7F = 0x7F := by decide
theorem test_reset_memory_canonical : Memory.wf State.reset.dm := by decide

/-! ### Witnesses: states and operands that meet the hypotheses of the obligations -/

/-- A machine of 17 data cells, so that R16 is the last register that exists and R17 the first that does not. -/
def seventeen : State := start 17 [(16, 5)] 1 0

/-- A machine with the window check and data cells 0..0x40. -/
def windowed (size : Nat) : State :=
  { State.construct { sized size with windowCheck := true } with dm := [(16, 7)] }

/-- A machine whose DirectAddr sends every field to one address. -/
def pointing (ea : Nat) : Params :=
  { sized 256 with windowCheck := true, directAddr := Vector.replicate 128 ea }

/-- A sound state, with a register set, an emission and a trace record. -/
def sound : State :=
  { start 128 [(16, 5)] 0b010 0 with pm := [(0, 0x0F01)], output := [⟨2, 5⟩], trace := [⟨.read, 127, 0⟩] }

theorem sound_inv : Inv sound :=
  ⟨by decide, by decide, by decide, by decide, by decide, by decide, by decide⟩

theorem witness_DecodeOfEncode : (Instr.ldi 16 0).wf = true ∧ (Instr.sts 0x7F 31).wf = true ∧ (Instr.add 0 31).wf = true := by decide
theorem witness_EncodeOfDecode : decode 0x0F01 = .instr (.add 16 17) ∧ decode 0xAD45 = .instr (.sts 0x65 20) := by decide
theorem witness_RepertoireEntriesDisjointInAnyOrder : repertoire.reverse.Perm repertoire ∧ repertoire.reverse ≠ repertoire :=
  ⟨List.reverse_perm _, by decide⟩

/-- Both ends of every row of the opcode map meet the hypothesis of their DecodesAs clause. -/
theorem witness_DecodesAs :
    [((0x0C00 : Word), (0x0FFF : Word), (0xFC00 : Word), (0x0C00 : Word)), (0x1800, 0x1BFF, 0xFC00, 0x1800),
      (0x1C00, 0x1FFF, 0xFC00, 0x1C00), (0x2000, 0x23FF, 0xFC00, 0x2000), (0x2400, 0x27FF, 0xFC00, 0x2400),
      (0x2800, 0x2BFF, 0xFC00, 0x2800), (0x2C00, 0x2FFF, 0xFC00, 0x2C00), (0x5000, 0x5FFF, 0xF000, 0x5000),
      (0x9406, 0x95F6, 0xFE0F, 0x9406), (0xA000, 0xA7FF, 0xF800, 0xA000), (0xA800, 0xAFFF, 0xF800, 0xA800),
      (0xB000, 0xB7FF, 0xF800, 0xB000), (0xB800, 0xBFFF, 0xF800, 0xB800), (0xC000, 0xCFFF, 0xF000, 0xC000),
      (0xE000, 0xEFFF, 0xF000, 0xE000), (0xF000, 0xF3FF, 0xFC00, 0xF000), (0xF400, 0xF7FF, 0xFC00, 0xF400)].all
      (fun r => r.1 &&& r.2.2.1 == r.2.2.2 && r.2.1 &&& r.2.2.1 == r.2.2.2) = true := by decide

/-- Add, Adc, Sub, And, Or, Eor, Mov, Subi, Ldi, Lsr: each clause, at the last register that exists. -/
theorem witness_register_clauses :
    (seventeen.hasCell (16 : RegNum).toNat ∧ seventeen.hasCell (16 : RegNum).toNat) ∧
    ¬ seventeen.hasCell (17 : RegNum).toNat ∧
    (seventeen.hasCell (16 : RegNum).toNat ∧ ¬ seventeen.hasCell (17 : RegNum).toNat) := by decide

/-- Lds, Sts: the window clause at both edges of the window, from inside and outside. -/
theorem witness_window_clauses :
    windowRejects (windowed 128).params (effectiveAddress (windowed 128).params 0x3F) ∧
    ¬ windowRejects (windowed 128).params (effectiveAddress (windowed 128).params 0x40) ∧
    windowRejects (pointing 0xC0) (effectiveAddress (pointing 0xC0) 0) ∧
    ¬ windowRejects (pointing 0xBF) (effectiveAddress (pointing 0xBF) 0) ∧
    ¬ windowRejects seventeen.params (effectiveAddress seventeen.params 0) := by
  simp only [← outsideWindow_iff]
  decide

/-- Lds, Sts: the cell clauses, with the window check on (data cells 0..0x40) and the register present, and with the
register missing and the cell present. -/
theorem witness_cell_clauses :
    ((windowed 65).hasCell (effectiveAddress (windowed 65).params 0x40) ∧ (windowed 65).hasCell (31 : RegNum).toNat) ∧
    ¬ (windowed 65).hasCell (effectiveAddress (windowed 65).params 0x41) ∧
    (seventeen.hasCell (effectiveAddress seventeen.params 0x10) ∧ ¬ seventeen.hasCell (17 : RegNum).toNat) := by decide

/-- In and Out: every clause. -/
theorem witness_port_clauses :
    ((0 : PortNum).toNat = 0 ∧ { seventeen with input := [7] }.input = 7 :: [] ∧ seventeen.hasCell (16 : RegNum).toNat) ∧
    ((0 : PortNum).toNat = 0 ∧ seventeen.input = []) ∧
    ((0 : PortNum).toNat = 0 ∧ { seventeen with input := [7] }.input = 7 :: [] ∧ ¬ seventeen.hasCell (17 : RegNum).toNat) ∧
    (1 : PortNum).toNat ≠ 0 ∧
    ((2 : PortNum).toNat < 3 ∧ seventeen.hasCell (16 : RegNum).toNat) ∧
    ((2 : PortNum).toNat < 3 ∧ ¬ seventeen.hasCell (17 : RegNum).toNat) ∧ ¬ (3 : PortNum).toNat < 3 := by decide

/-- Brbs, Brbc: both clauses, on bits 0 and 7. -/
theorem witness_branch_clauses : (seventeen.flags.getLsbD (0 : FlagIndex).toNat = true) ∧
    (seventeen.flags.getLsbD (7 : FlagIndex).toNat ≠ true) ∧ (seventeen.flags.getLsbD (7 : FlagIndex).toNat = false) ∧
    (seventeen.flags.getLsbD (0 : FlagIndex).toNat ≠ false) := by decide

theorem witness_StepRunsTheDecodedInstruction : sound.status = .running ∧ sound.pc.toNat < sound.params.progSize ∧
    decode (Bank.read sound.pm sound.pc.toNat) = .instr (.add 16 17) := by decide
theorem witness_FetchOutsideProgramMemoryHalts :
    { sound with pc := 32 }.status = .running ∧ ¬ ({ sound with pc := 32 } : State).pc.toNat < sound.params.progSize := by decide

/-- Both ends of every range of 30_encoding.md R96 are in the list. -/
theorem witness_UnknownWord_ends : ∀ w ∈ [(0x0001 : Word), 0x0BFF, 0x1000, 0x17FF, 0x3000, 0x4FFF, 0x6000, 0x93FF, 0x9400,
    0x95FF, 0x9599, 0x9600, 0x9FFF, 0xD000, 0xDFFF, 0xF800, 0xFFFF], UnknownWord w := by
  simp [UnknownWord]
/-- The accepted words beside them are not. -/
theorem witness_UnknownWord_neighbours : ∀ w ∈ [(0x0000 : Word), 0x0C00, 0x0FFF, 0x1800, 0x2FFF, 0x5000, 0x5FFF, 0x9406,
    0x95F6, 0x9598, 0xA000, 0xCFFF, 0xE000, 0xF7FF], ¬ UnknownWord w := by
  simp [UnknownWord]
/-- A machine about to fetch an unknown word. -/
def lost : State := { sound with pm := [(0, 0xFFFF)] }
theorem witness_UnknownWordsAreExactlyTheListedAndHalt : lost.status = .running ∧ lost.pc.toNat < lost.params.progSize ∧
    UnknownWord (Bank.read lost.pm lost.pc.toNat) :=
  ⟨rfl, by decide, witness_UnknownWord_ends 0xFFFF (by decide)⟩

theorem witness_HaltedEngineTakesNoStep : (sound.halt .haltedBreak).status ≠ .running := by decide
theorem witness_HaltingStepChangesOnlyTheStatus : ∃ t, { sound with pm := [(0, 0x9598)] }.status = .running ∧
    step { sound with pm := [(0, 0x9598)] } = .next t ∧ t.status ≠ .running := ⟨_, rfl, rfl, by decide⟩
theorem witness_RunEndsAtTheFirstHalt : ∃ t, runToHalt 2 { sound with pm := [(1, 0x9598)] } = some t ∧ t.status ≠ .running :=
  ⟨_, rfl, by decide⟩
/-- An instruction that answers a next state, for the statements about all of them. -/
theorem witness_exec_next : ∃ t, sound.status = .running ∧ exec (.out 2 16) sound = .next t ∧
    t.output ≠ sound.output := ⟨_, rfl, rfl, by decide⟩
theorem witness_ZeroCellsRunOffTheEnd : sound.status = .running ∧ sound.params.progSize < 65536 ∧
    ({ sound with pc := 30 } : State).pc.toNat + 2 = sound.params.progSize ∧
    (∀ j, j < 2 → Bank.read sound.pm (30 + j) = 0) := by decide
theorem witness_OnlyDirectAccessCanRunOutOfMemory : 32 ≤ (start 32 [] 0 0).params.dataSize ∧
    (start 32 [] 0 0).status = .running ∧ isDirectMemory (.add 0 31) = false ∧
    ∃ t, exec (.add 0 31) (start 32 [] 0 0) = .next t := ⟨by decide, rfl, rfl, _, rfl⟩
theorem witness_DirectAccessNeverFaultsByDefault : 128 ≤ sound.params.dataSize ∧ sound.params.windowCheck = false ∧
    sound.params.directAddr = Params.zeroExtendTable ∧ sound.status = .running := ⟨by decide, rfl, rfl, rfl⟩
theorem witness_FlagsChangeOnlyAsTabulated : writesCarry (.and 0 0) = false ∧ writesZeroNegative (.mov 16 16) = false ∧
    ∃ t, exec (.mov 16 16) sound = .next t := ⟨rfl, rfl, _, rfl⟩
theorem witness_PaddingBitBranches : Inv sound ∧ 3 ≤ (3 : FlagIndex).toNat ∧ 3 ≤ (7 : FlagIndex).toNat :=
  ⟨sound_inv, by decide, by decide⟩
theorem witness_TraceNeverAffectsAStep : sound.eraseTrace = (setTrace true sound).eraseTrace ∧ sound.traceEnable ≠ (setTrace true sound).traceEnable :=
  ⟨rfl, by decide⟩
theorem witness_StepKeepsInvariant : Inv sound ∧ ∃ t, step sound = .next t ∧ t.pc ≠ sound.pc := ⟨sound_inv, _, rfl, by decide⟩
theorem witness_CanonicalBankIsItsContents : Bank.wf [((0 : Nat), (1 : Byte)), (5, 2)] ∧
    ¬ Bank.wf [((5 : Nat), (2 : Byte)), (0, 1)] := by decide
theorem witness_DataMemoryAccessLaws : sound.hasCell 127 ∧ ¬ sound.hasCell 128 := by decide
theorem witness_StoreThenLoadReturnsTheByte : sound.hasCell (16 : RegNum).toNat ∧ sound.hasCell (31 : RegNum).toNat ∧
    sound.hasCell (effectiveAddress sound.params 0x7F) ∧
    ¬ windowRejects sound.params (effectiveAddress sound.params 0x7F) := by
  rw [← outsideWindow_iff]
  decide
theorem witness_AddThenAdcAddsSixteenBits : sound.hasCell (24 : RegNum).toNat ∧ sound.hasCell (25 : RegNum).toNat ∧
    sound.hasCell (22 : RegNum).toNat ∧ sound.hasCell (23 : RegNum).toNat ∧ (24 : RegNum) ≠ 25 ∧ (24 : RegNum) ≠ 23 := by decide
theorem witness_SubiOfComplementAdds : sound.hasCell (16 : RegNum).toNat ∧ (255 : Byte) ≠ 0 ∧ (1 : Byte) ≠ 0 := by decide
theorem witness_InstallWritesFromCellZero : [(7 : Word), 8].length ≤ (sized 128).progSize ∧
    ({ sized 128 with progSize := 1 } : Params).progSize < [(7 : Word), 8].length ∧
    ([(7 : Word), 8][1]? = some 8 ∧ 1 < (sized 128).progSize) ∧ [(7 : Word), 8].length ≤ 2 := by decide
theorem witness_NopRuleWhole : 0x0001 ≤ (0x0001 : Word).toNat ∧ (0x0BFF : Word).toNat ≤ 0x0BFF := by decide
theorem witness_pair_clauses : (start 28 [] 0 0).hasCell 27 ∧ (start 30 [] 0 0).hasCell 29 ∧ (start 32 [] 0 0).hasCell 31 ∧
    ¬ (start 27 [] 0 0).hasCell 27 ∧ ¬ (start 29 [] 0 0).hasCell 29 ∧ ¬ (start 31 [] 0 0).hasCell 31 := by decide
theorem witness_ViewsShowTheCells :
    (32 ≤ (start 32 [] 0 0).params.dataSize ∧ ¬ 32 ≤ (start 31 [] 0 0).params.dataSize) ∧
    (16 + 112 ≤ sound.params.dataSize ∧ ¬ 16 + 113 ≤ sound.params.dataSize) ∧
    (0 + sound.params.progSize ≤ sound.params.progSize ∧ ¬ 1 + sound.params.progSize ≤ sound.params.progSize) ∧
    sound.status = .running ∧ (sound.halt .haltedBreak).status ≠ .running := by decide

end Sys2Proof.Tests
end

section
/-!
PROOFS. The state family (spec/10_state.md): the register pairs are the concatenations of their registers (R24), and
construction and reset give every piece of state its table value (R37).
-/
namespace Sys2Proof.Proofs

open Sys2Proof Sys2Proof.Machine

/-- The cells of a bank lie at the addresses below its length, so whatever lies below a cell of the bank is one (R52). -/
theorem hasCell_of_le {s : State} {a b : Nat} (h : s.hasCell b) (hab : a ≤ b) : s.hasCell a :=
  Nat.lt_of_le_of_lt hab h

/-- A pair whose low register lies below its high one is shown as soon as the high one exists. -/
theorem viewPair_shows_of_hi {s : State} {hi lo : RegNum} (hlo : lo ≤ hi) (h : s.hasCell hi.toNat) :
    PairShows (viewPair hi lo s) (s.cell hi.toNat) (s.cell lo.toNat) :=
  viewPair_shows h (hasCell_of_le h (BitVec.le_def.mp hlo))

/-- Settles O49: each of the three pairs is an instance of `viewPair_shows_of_hi`. -/
theorem registerPairsAreConcatenations : Obligations.RegisterPairsAreConcatenations := fun _ =>
  ⟨viewPair_shows_of_hi (hi := 27) (lo := 26) (by decide),
   viewPair_shows_of_hi (hi := 29) (lo := 28) (by decide),
   viewPair_shows_of_hi (hi := 31) (lo := 30) (by decide)⟩

/-- A data memory with no cell listed reads as the reset value everywhere (R37, R52). -/
theorem cell_eq_zero_of_dm_nil {s : State} (h : s.dm = []) (a : Nat) : s.cell a = 0 := by
  rw [State.cell, h, Bank.read_nil]

/-- A program memory with no cell listed reads as the reset value everywhere (R37, R52). -/
theorem read_pm_eq_zero_of_pm_nil {s : State} (h : s.pm = []) (a : Nat) : Bank.read s.pm a = 0 := by
  rw [h, Bank.read_nil]

/-- Settles O50: both banks are left with no cell listed, hence read 0 everywhere; the other pieces are the fields
that `State.construct` and `hostReset` write. -/
theorem constructionAndResetValues : Obligations.ConstructionAndResetValues := by
  intro p s
  constructor
  · exact ⟨cell_eq_zero_of_dm_nil (State.construct_dm p), read_pm_eq_zero_of_pm_nil (State.construct_pm p),
      State.construct_pc p, State.construct_flags p, State.construct_status p, State.construct_traceEnable p,
      State.construct_params p⟩
  · exact ⟨cell_eq_zero_of_dm_nil (hostReset_dm s), read_pm_eq_zero_of_pm_nil (hostReset_pm s), hostReset_pc s,
      hostReset_flags s, hostReset_status s, hostReset_traceEnable s, hostReset_params s⟩

end Sys2Proof.Proofs
end

section
/-!
PROOFS. The memory family (spec/20_memory.md): what one access to a data cell does where the cell exists, and the
halt where it does not (R52, R53, R66).
-/
namespace Sys2Proof.Proofs

open Sys2Proof Sys2Proof.Machine

/-- `s` after the data write of `v` to cell `a`, with the record of that write: what `writeCell` hands on. -/
def stored (s : State) (a : Nat) (v : Byte) : State :=
  { s with dm := Bank.write s.dm a v }.withRecords [⟨.write, a, v⟩]

theorem writeCell_eq_stored {s : State} {a : Nat} (v : Byte) (h : s.hasCell a) (k : State → Result) :
    writeCell a v s k = k (stored s a v) := writeCell_ok v h k

/-- What a data write does to every cell (R52). -/
theorem stored_cell (s : State) (a : Nat) (v : Byte) (b : Nat) :
    (stored s a v).cell b = if b = a then v else s.cell b := Bank.read_write s.dm a b v

theorem stored_cell_same (s : State) (a : Nat) (v : Byte) : (stored s a v).cell a = v := by
  rw [stored_cell, if_pos rfl]

theorem stored_onlyCellChanged (s : State) (a : Nat) (v : Byte) : OnlyCellChanged s (stored s a v) a :=
  fun b hb => by rw [stored_cell, if_neg hb]

theorem stored_sameElsewhere (s : State) (a : Nat) (v : Byte) : SameElsewhere s (stored s a v) :=
  ⟨rfl, rfl, rfl, rfl, rfl, rfl, rfl⟩

@[simp] theorem stored_flags (s : State) (a : Nat) (v : Byte) : (stored s a v).flags = s.flags := rfl
@[simp] theorem stored_pc (s : State) (a : Nat) (v : Byte) : (stored s a v).pc = s.pc := rfl

/-- A data write leaves one record (R66). -/
theorem stored_traceGrowsBy (s : State) (a : Nat) (v : Byte) : TraceGrowsBy s (stored s a v) [⟨.write, a, v⟩] := rfl

theorem writeCell_halts {s : State} {a : Nat} (v : Byte) (h : ¬ s.hasCell a) (k : State → Result) :
    writeCell a v s k = .next (s.afterOutOfMemory []) := by
  rw [writeCell_missing v h, raiseOutOfMemory_eq]

theorem readCell_halts {s : State} {a : Nat} (h : ¬ s.hasCell a) (k : Byte → State → Result) :
    readCell a s k = .next (s.afterOutOfMemory []) := by
  rw [readCell_missing h, raiseOutOfMemory_eq]

/-- Settles O45: where the cell exists a write hands on `stored` and a read the cell's value; where it does not,
neither reaches its continuation. -/
theorem dataMemoryAccessLaws : Obligations.DataMemoryAccessLaws := by
  intro a v s
  constructor
  · intro h
    exact ⟨⟨stored s a v, writeCell_eq_stored v h, stored_cell_same s a v, stored_onlyCellChanged s a v,
      stored_sameElsewhere s a v, stored_flags s a v, stored_pc s a v, stored_traceGrowsBy s a v⟩, readCell_ok h⟩
  · intro h
    exact ⟨writeCell_halts v h, readCell_halts h⟩

end Sys2Proof.Proofs
end

section
/-!
PROOFS. The encoding family (spec/30_encoding.md): the entries of the Repertoire match disjoint sets of words, in
whatever order they are registered (R93), and the words that match none are those of R96, on which the step halts by
UnknownCode (spec/47_engine_and_host.md R187).
-/
namespace Sys2Proof.Proofs

open Sys2Proof Sys2Proof.Machine

/-! ### A match is an equation on the bits a matcher looks at -/

/-- The bits of a word a matcher looks at: those of its mask (R91), and every bit for a literal (R92). -/
def matchedBits : Matcher → Word
  | .masked mask _ => mask
  | .exact _ => BitVec.allOnes 16

/-- What the bits a matcher looks at must be. -/
def requiredCode : Matcher → Word
  | .masked _ code => code
  | .exact code => code

theorem holds_iff (m : Matcher) (w : Word) : m.holds w = true ↔ w &&& matchedBits m = requiredCode m := by
  cases m with
  | masked mask code => exact beq_iff_eq
  | exact code => rw [matchedBits, BitVec.and_allOnes]; exact beq_iff_eq

/-- Two matchers that hold of one word require the same of the bits both look at. -/
theorem requiredCode_agree {m n : Matcher} {w : Word} (hm : m.holds w = true) (hn : n.holds w = true) :
    requiredCode m &&& matchedBits n = requiredCode n &&& matchedBits m := by
  rw [holds_iff] at hm hn
  rw [← hm, ← hn, BitVec.and_assoc, BitVec.and_assoc, BitVec.and_comm (matchedBits m)]

/-! ### At most one entry matches a word (R93) -/

theorem mem_repertoire (op : Opcode) : op ∈ repertoire := by
  cases op <;> decide

/-- The table of R90: any two of its rows differ in a bit that both of them fix. -/
theorem rows_differ : ∀ p ∈ repertoire, ∀ q ∈ repertoire,
    requiredCode p.matcher &&& matchedBits q.matcher = requiredCode q.matcher &&& matchedBits p.matcher → p = q := by
  decide

theorem holds_unique {p q : Opcode} {w : Word} (hp : p.matcher.holds w = true) (hq : q.matcher.holds w = true) :
    p = q :=
  rows_differ p (mem_repertoire p) q (mem_repertoire q) (requiredCode_agree hp hq)

theorem holds_of_resolveIn {entries : List Opcode} {w : Word} {op : Opcode} (h : resolveIn entries w = some op) :
    op.matcher.holds w = true :=
  List.find?_some (p := fun entry : Opcode => entry.matcher.holds w) h

theorem exists_resolveIn {entries : List Opcode} {w : Word} {op : Opcode} (hmem : op ∈ entries)
    (hop : op.matcher.holds w = true) : ∃ first, resolveIn entries w = some first :=
  Option.isSome_iff_exists.mp (List.find?_isSome.mpr ⟨op, hmem, hop⟩)

/-- First match finds the entry that matches, wherever it stands in the list: there is no other (R91, R93). -/
theorem resolveIn_eq_some_iff (entries : List Opcode) (w : Word) (op : Opcode) :
    resolveIn entries w = some op ↔ op ∈ entries ∧ op.matcher.holds w = true := by
  constructor
  · intro h
    exact ⟨List.mem_of_find?_eq_some h, holds_of_resolveIn h⟩
  · intro ⟨hmem, hop⟩
    obtain ⟨first, hfirst⟩ := exists_resolveIn hmem hop
    rw [hfirst, holds_unique hop (holds_of_resolveIn hfirst)]

/-- Settles O4: two entries that match one word are the same entry, and no entry is registered twice; so what a list
of entries resolves a word to depends on its members alone. -/
theorem repertoireEntriesDisjointInAnyOrder : Obligations.RepertoireEntriesDisjointInAnyOrder := by
  constructor
  · have hnodup : repertoire.Nodup := by decide
    exact hnodup.imp fun hne _ ⟨hp, hq⟩ => hne (holds_unique hp hq)
  · intro entries w hperm
    apply Option.ext
    intro op
    rw [resolve, resolveIn_eq_some_iff, resolveIn_eq_some_iff, hperm.mem_iff]

/-! ### The words a row matches, as a range of numbers -/

/-- The number of low bits a row leaves to its operands; for Lsr, whose operand stands between fixed bits, the number
of bits below the leading fixed ones. -/
def operandBits : Opcode → Nat
  | .nop | .brk => 0
  | .add | .sub | .adc | .and | .eor | .or | .mov | .brbs | .brbc => 10
  | .lds | .sts | .inp | .out => 11
  | .subi | .rjmp | .ldi => 12
  | .lsr => 9

/-- Two words agree above their low `k` bits iff their quotients by `2 ^ k` are equal. -/
theorem and_highBits_eq_iff (w code : Word) (k : Nat) :
    w &&& (BitVec.allOnes 16 <<< k) = code &&& (BitVec.allOnes 16 <<< k) ↔
      w.toNat / 2 ^ k = code.toNat / 2 ^ k := by
  have hcut (x : Word) : (x >>> k <<< k).toNat = x.toNat / 2 ^ k * 2 ^ k := by
    rw [BitVec.toNat_shiftLeft, BitVec.toNat_ushiftRight, Nat.shiftLeft_eq, Nat.shiftRight_eq_div_pow]
    exact Nat.mod_eq_of_lt (Nat.lt_of_le_of_lt (Nat.div_mul_le_self _ _) x.isLt)
  rw [← BitVec.shiftLeft_ushiftRight, ← BitVec.shiftLeft_ushiftRight, ← BitVec.toNat_inj, hcut, hcut]
  exact Nat.mul_left_inj (Nat.two_pow_pos k).ne'

/-- Every row fixes the bits above its operand bits (R90). -/
theorem matchedBits_and_highBits (op : Opcode) :
    matchedBits op.matcher &&& (BitVec.allOnes 16 <<< operandBits op) = BitVec.allOnes 16 <<< operandBits op := by
  cases op <;> decide

/-- Every row but Lsr fixes no other bit (R90). -/
theorem matchedBits_of_ne_lsr {op : Opcode} (h : op ≠ .lsr) :
    matchedBits op.matcher = BitVec.allOnes 16 <<< operandBits op := by
  revert h
  cases op <;> decide

theorem requiredCode_and_matchedBits (op : Opcode) :
    requiredCode op.matcher &&& matchedBits op.matcher = requiredCode op.matcher := by
  cases op <;> decide

/-- A row matches no word outside its block of `2 ^ operandBits op` consecutive words. -/
theorem quotient_eq_of_holds {op : Opcode} {w : Word} (h : op.matcher.holds w = true) :
    w.toNat / 2 ^ operandBits op = (requiredCode op.matcher).toNat / 2 ^ operandBits op := by
  rw [holds_iff] at h
  rw [← and_highBits_eq_iff, ← h, BitVec.and_assoc, matchedBits_and_highBits]

/-- A row other than Lsr matches exactly the words of its block. -/
theorem holds_iff_quotient_eq {op : Opcode} (hop : op ≠ .lsr) (w : Word) :
    op.matcher.holds w = true ↔
      w.toNat / 2 ^ operandBits op = (requiredCode op.matcher).toNat / 2 ^ operandBits op := by
  rw [holds_iff, ← and_highBits_eq_iff, ← matchedBits_of_ne_lsr hop, requiredCode_and_matchedBits]

/-! ### The unknown words (R96) -/

/-- The words of R96 are those outside the block of every row, and those of Lsr's block, where Break's word lies too,
that neither Lsr nor Break matches. -/
theorem no_row_holds_iff (w : Word) : (∀ op ∈ repertoire, ¬ op.matcher.holds w = true) ↔ UnknownWord w := by
  have hlsr : Opcode.lsr.matcher.holds w = true ↔ w &&& 0xFE0F = 0x9406 := holds_iff _ w
  have hbrk : w = 0x9598 ↔ w.toNat = 0x9598 := BitVec.toNat_inj.symm
  have hw : w.toNat < 2 ^ 16 := w.isLt
  simp only [repertoire, List.forall_mem_cons, hlsr, ne_eq, reduceCtorEq, not_false_eq_true, holds_iff_quotient_eq,
    List.not_mem_nil, false_imp_iff, implies_true, and_true]
  simp only [operandBits, Opcode.matcher, requiredCode, UnknownWord, ne_eq, hbrk, BitVec.reduceToNat]
  by_cases hl : w &&& 0xFE0F = 0x9406
  · have hblock : w.toNat / 2 ^ 9 = 0x9406 / 2 ^ 9 := quotient_eq_of_holds (hlsr.mpr hl)
    simp only [hl, not_true_eq_false, false_and, and_false, false_or, false_iff]
    omega
  · simp only [hl, not_false_eq_true, true_and]
    omega

theorem decode_eq_unknownCode_iff (w : Word) :
    decode w = .unknownCode w ↔ ∀ op ∈ repertoire, ¬ op.matcher.holds w = true := by
  have hnone : resolve w = none ↔ ∀ op ∈ repertoire, ¬ op.matcher.holds w = true := List.find?_eq_none
  rw [← hnone, decode]
  cases resolve w <;> simp

/-- What a Running engine does with a word it fetches and cannot decode (47_engine_and_host.md R187). -/
theorem step_of_unknownCode {s : State} {w : Word} (hs : s.status = .running) (hp : s.pc.toNat < s.params.progSize)
    (hd : decode (Bank.read s.pm s.pc.toNat) = .unknownCode w) :
    step s = .next (s.halt (.haltedFault .unknownCode)) := by
  simp only [step, hs, runningStep, fetch_inside hp, hd]

/-- Settles O26: the rejected words are those in no row's block, which are the listed ones, and on a rejected word the
step is the halt. -/
theorem unknownWordsAreExactlyTheListedAndHalt : Obligations.UnknownWordsAreExactlyTheListedAndHalt := by
  have hunknown (w : Word) : decode w = .unknownCode w ↔ UnknownWord w :=
    (decode_eq_unknownCode_iff w).trans (no_row_holds_iff w)
  exact ⟨hunknown, fun s hs hp hw => step_of_unknownCode hs hp ((hunknown _).mpr hw)⟩

end Sys2Proof.Proofs
end

section
/-!
PROOFS. The register ALU family (spec/40_alu_register.md): a word its row matches decodes to the row's operands (R90,
R91), the result of every operation is a number and the flags that go with it (R29, R30), and form RR writes that
result or halts at the first register that is missing (R110, R111).
-/
namespace Sys2Proof.Proofs

open Sys2Proof Sys2Proof.Machine

/-! ### Decoding a word its row matches -/

theorem decode_of_holds {op : Opcode} {w : Word} (h : op.matcher.holds w = true) :
    decode w = .instr (op.operands w) := by
  have hop : resolve w = some op := (resolveIn_eq_some_iff repertoire w op).mpr ⟨mem_repertoire op, h⟩
  rw [decode, hop]

/-- A row with a mask and a code decodes every word they select. -/
theorem decodesAs_operands {op : Opcode} {mask code : Word} (hrow : op.matcher = .masked mask code) :
    DecodesAs mask code op.operands := by
  intro w hw
  apply decode_of_holds
  rw [hrow, holds_iff]
  exact hw

/-! ### The state after a completed instruction, in the words of the rules -/

theorem afterWrite_cell_same (s : State) (a : Nat) (v f : Byte) (l : List AccessRecord) :
    (s.afterWrite a v f l).cell a = v := by
  rw [State.afterWrite_cell, if_pos rfl]

theorem afterWrite_reg_same (s : State) (d : RegNum) (v f : Byte) (l : List AccessRecord) :
    (s.afterWrite d.toNat v f l).reg d = v := afterWrite_cell_same s d.toNat v f l

theorem afterWrite_onlyCellChanged (s : State) (a : Nat) (v f : Byte) (l : List AccessRecord) :
    OnlyCellChanged s (s.afterWrite a v f l) a :=
  fun b hb => by rw [State.afterWrite_cell, if_neg hb]

theorem afterWrite_fallsThrough (s : State) (a : Nat) (v f : Byte) (l : List AccessRecord) :
    FallsThrough s (s.afterWrite a v f l) := State.advance_pc_toNat s

theorem afterWrite_sameElsewhere (s : State) (a : Nat) (v f : Byte) (l : List AccessRecord) :
    SameElsewhere s (s.afterWrite a v f l) := ⟨rfl, rfl, rfl, rfl, rfl, rfl, rfl⟩

theorem afterWrite_traceGrowsBy (s : State) (a : Nat) (v f : Byte) (l : List AccessRecord) :
    TraceGrowsBy s (s.afterWrite a v f l) l := State.afterWrite_trace s a v f l

/-- A write that keeps FLAGS is a move. -/
theorem afterWrite_movedByte (s : State) (a : Nat) (v : Byte) (l : List AccessRecord) :
    MovedByte s (s.afterWrite a v s.flags l) a v where
  value := afterWrite_cell_same s a v s.flags l
  frame := afterWrite_onlyCellChanged s a v s.flags l
  flags := State.afterWrite_flags s a v s.flags l
  pc := afterWrite_fallsThrough s a v s.flags l
  elsewhere := afterWrite_sameElsewhere s a v s.flags l

/-! ### ALU results as numbers and flags -/

/-- With FLAGS `f` before it, `x` holds the number `result`, and its flags are this carry and the Z and N of that
number (10_state.md R29, R30). -/
structure IsAluResult (f : Byte) (x : AluResult) (result : Nat) (carry : Bool) : Prop where
  value : x.value.toNat = result
  flags : x.flags = flagsCZN f carry x.value

theorem sumResult_isAluResult (f : Byte) (raw : Nat) :
    IsAluResult f (sumResult f raw) (raw % 256) (decide (255 < raw)) := ⟨sumResult_value f raw, rfl⟩

theorem differenceResult_isAluResult (f : Byte) (raw : Int) :
    IsAluResult f (differenceResult f raw) (raw % 256).toNat (decide (raw < 0)) :=
  ⟨differenceResult_value f raw, rfl⟩

/-- The carry of a bitwise result is the old one (R30). -/
theorem logicResult_isAluResult (f : Byte) {res : Byte} {result : Nat} (h : res.toNat = result) :
    IsAluResult f (logicResult f res) result (flagAt f 0) := ⟨h, rfl⟩

/-- Writing an ALU result to a register and its flags to FLAGS. -/
theorem IsAluResult.wrote {s : State} {x : AluResult} {result : Nat} {carry : Bool}
    (h : IsAluResult s.flags x result carry) (d : RegNum) (l : List AccessRecord) :
    WroteAluResult s (s.afterWrite d.toNat x.value x.flags l) d result carry := by
  obtain ⟨rfl, hflags⟩ := h
  exact {
    value := by rw [afterWrite_reg_same]
    frame := afterWrite_onlyCellChanged s d.toNat x.value x.flags l
    flags := flagsCZN_spec _ _ _ _ hflags
    pc := afterWrite_fallsThrough s d.toNat x.value x.flags l
    elsewhere := afterWrite_sameElsewhere s d.toNat x.value x.flags l }

/-! ### Form RR -/

/-- An instruction of form RR meets the rule of the numbers and carries its operation computes (R110, R111). -/
theorem twoRegisterRule_of_combineRegs {mk : RegNum → RegNum → Instr} {op : Byte → Byte → Byte → AluResult}
    {result : Nat → Nat → Bool → Nat} {carry : Nat → Nat → Bool → Bool}
    (hexec : ∀ d r s, exec (mk d r) s = combineRegs op d r s)
    (hop : ∀ f a b : Byte, IsAluResult f (op f a b) (result a.toNat b.toNat (flagAt f 0))
      (carry a.toNat b.toNat (flagAt f 0))) :
    TwoRegisterRule mk result carry := by
  intro d r s
  rw [hexec, combineRegs_eq]
  refine ⟨fun hd hr => ?_, fun hd => if_neg hd, fun hd hr => ?_⟩
  · rw [if_pos hd, if_pos hr]
    refine ⟨_, rfl, (hop _ _ _).wrote d _, ?_⟩
    rw [afterWrite_reg_same]
    exact afterWrite_traceGrowsBy _ _ _ _ _
  · rw [if_pos hd, if_neg hr]

/-- Settles O5: Add is form RR with the sum of the operands. -/
theorem addRuleWhole : Obligations.AddRuleWhole :=
  ⟨decodesAs_operands (op := .add) rfl,
   twoRegisterRule_of_combineRegs (op := aluAdd) (fun _ _ _ => rfl) fun f _ _ => sumResult_isAluResult f _⟩

/-- Settles O6: Adc is form RR with the sum of the operands and the carry before the instruction. -/
theorem adcRuleWhole : Obligations.AdcRuleWhole :=
  ⟨decodesAs_operands (op := .adc) rfl,
   twoRegisterRule_of_combineRegs (op := aluAdc) (fun _ _ _ => rfl) fun f _ _ => sumResult_isAluResult f _⟩

/-- Settles O7: Sub is form RR with the difference of the operands. -/
theorem subRuleWhole : Obligations.SubRuleWhole :=
  ⟨decodesAs_operands (op := .sub) rfl,
   twoRegisterRule_of_combineRegs (op := aluSub) (fun _ _ _ => rfl) fun f _ _ => differenceResult_isAluResult f _⟩

/-- Settles O8: And is form RR with a bitwise result. -/
theorem andRuleWhole : Obligations.AndRuleWhole :=
  ⟨decodesAs_operands (op := .and) rfl,
   twoRegisterRule_of_combineRegs (op := aluAnd) (fun _ _ _ => rfl) fun f a b =>
    logicResult_isAluResult f (BitVec.toNat_and a b)⟩

/-- Settles O9: Or is form RR with a bitwise result. -/
theorem orRuleWhole : Obligations.OrRuleWhole :=
  ⟨decodesAs_operands (op := .or) rfl,
   twoRegisterRule_of_combineRegs (op := aluOr) (fun _ _ _ => rfl) fun f a b =>
    logicResult_isAluResult f (BitVec.toNat_or a b)⟩

/-- Settles O10: Eor is form RR with a bitwise result. -/
theorem eorRuleWhole : Obligations.EorRuleWhole :=
  ⟨decodesAs_operands (op := .eor) rfl,
   twoRegisterRule_of_combineRegs (op := aluEor) (fun _ _ _ => rfl) fun f a b =>
    logicResult_isAluResult f (BitVec.toNat_xor a b)⟩

/-! ### Mov -/

/-- Settles O11: the three clauses are the three branches of `execMov_eq`, the first of which keeps FLAGS. -/
theorem movRuleWhole : Obligations.MovRuleWhole := by
  refine ⟨decodesAs_operands (op := .mov) rfl, fun d r s => ?_⟩
  rw [exec, execMov_eq]
  refine ⟨fun hr hd => ?_, fun hr => if_neg hr, fun hr hd => ?_⟩
  · rw [if_pos hr, if_pos hd]
    exact ⟨_, rfl, afterWrite_movedByte s d.toNat (s.reg r) _, afterWrite_traceGrowsBy _ _ _ _ _⟩
  · rw [if_pos hr, if_neg hd]

end Sys2Proof.Proofs
end

section
/-!
PROOFS. The immediate ALU family (spec/41_alu_immediate.md): the 4-bit register field with a 1 above it is 16 plus
the field (R82), form R1 writes the result of its operation or halts where its register is missing, Subi being that
form with the immediate fixed (R131), and Ldi is the write alone (R132).
-/
namespace Sys2Proof.Proofs

open Sys2Proof Sys2Proof.Machine

/-! ### Format RI -/

/-- The two readings of the 4-bit register field are one number (10_state.md R23, 30_encoding.md R82). -/
theorem fieldD4_eq_add (w : Word) : fieldD4 w = 16 + (w.extractLsb' 4 4).setWidth 5 := by
  have hprefix (x : BitVec 4) : 1#1 ++ x = 16 + x.setWidth 5 := by
    revert x
    decide
  exact hprefix _

theorem formatRI_eq_fields (mk : RegNum → Byte → Instr) (w : Word) :
    formatRI mk w = mk (fieldD4 w) (fieldImm w) := by
  rw [formatRI, fieldD4_eq_add, fieldImm]

/-- A row whose operands are the fields of format RI decodes as that format says (R82, R90). -/
theorem decodesAs_formatRI {op : Opcode} {mask code : Word} {mk : RegNum → Byte → Instr}
    (hrow : op.matcher = .masked mask code) (hoperands : ∀ w, op.operands w = mk (fieldD4 w) (fieldImm w)) :
    DecodesAs mask code (formatRI mk) := by
  intro w hw
  rw [formatRI_eq_fields, ← hoperands]
  exact decodesAs_operands hrow w hw

/-! ### Form R1 -/

/-- An instruction of form R1 meets the rule of the number and carry its operation computes (R131, 42_shift.md R141). -/
theorem oneRegisterRule_of_modifyReg {mk : RegNum → Instr} {op : Byte → Byte → AluResult} {result : Nat → Nat}
    {carry : Nat → Bool} (hexec : ∀ d s, exec (mk d) s = modifyReg op d s)
    (hop : ∀ f a : Byte, IsAluResult f (op f a) (result a.toNat) (carry a.toNat)) :
    OneRegisterRule mk result carry := by
  intro d s
  rw [hexec, modifyReg_eq]
  refine ⟨fun hd => ?_, fun hd => if_neg hd⟩
  rw [if_pos hd]
  refine ⟨_, rfl, (hop _ _).wrote d _, ?_⟩
  rw [afterWrite_reg_same]
  exact afterWrite_traceGrowsBy _ _ _ _ _

theorem exec_subi (d : RegNum) (imm : Byte) (s : State) :
    exec (.subi d imm) s = modifyReg (fun f a => aluSub f a imm) d s := by
  rw [exec, execSubi, combineImm_eq]

/-- Settles O12: Subi is form R1 with the difference of the register and the immediate. -/
theorem subiRuleWhole : Obligations.SubiRuleWhole :=
  ⟨decodesAs_formatRI (op := .subi) rfl fun _ => rfl,
   fun imm => oneRegisterRule_of_modifyReg (fun d s => exec_subi d imm s) fun f _ => differenceResult_isAluResult f _⟩

/-! ### Ldi -/

/-- Settles O13: the two clauses are the two branches of `writeReg_finish_eq`, the first of which keeps FLAGS. -/
theorem ldiRuleWhole : Obligations.LdiRuleWhole := by
  refine ⟨decodesAs_formatRI (op := .ldi) rfl fun _ => rfl, fun d imm s => ?_⟩
  rw [exec, execLdi, writeReg_finish_eq]
  refine ⟨fun hd => ?_, fun hd => if_neg hd⟩
  rw [if_pos hd]
  exact ⟨_, rfl, afterWrite_movedByte s d.toNat imm _, afterWrite_traceGrowsBy _ _ _ _ _⟩

end Sys2Proof.Proofs
end

section
/-!
PROOFS. The shift (spec/42_shift.md): Lsr is form R1 with the operand halved; the bit shifted out is the carry, and
FLAGS, the old carry among them, has no part in the result (R140, R141).
-/
namespace Sys2Proof.Proofs

open Sys2Proof Sys2Proof.Machine

theorem aluLsr_isAluResult (f a : Byte) : IsAluResult f (aluLsr f a) (a.toNat / 2) (a.toNat.testBit 0) :=
  ⟨aluLsr_value f a, rfl⟩

/-- Settles O14: Lsr is form R1 with the operand halved and its bit 0 in C. -/
theorem lsrRuleWhole : Obligations.LsrRuleWhole :=
  ⟨decodesAs_operands (op := .lsr) rfl, oneRegisterRule_of_modifyReg (fun _ _ => rfl) aluLsr_isAluResult⟩

end Sys2Proof.Proofs
end

section
/-!
PROOFS. The direct-addressed family (spec/43_direct_memory.md): the fields of format DM (R84, R145), the window check
before any access (R147), and Lds and Sts each a read and a move of the byte read, halting at the first cell that is
missing (R148, R150).
-/
namespace Sys2Proof.Proofs

open Sys2Proof Sys2Proof.Machine

/-! ### Format DM -/

theorem formatDM_eq_fields (mk : RegNum → DirectField → Instr) (w : Word) :
    formatDM mk w = mk (fieldD4 w) (fieldDirect w) := by
  rw [formatDM, fieldD4_eq_add, fieldDirect]

/-- A row whose operands are the fields of format DM decodes as that format says (R84, R90). -/
theorem decodesAs_formatDM {op : Opcode} {mask code : Word} {mk : RegNum → DirectField → Instr}
    (hrow : op.matcher = .masked mask code) (hoperands : ∀ w, op.operands w = mk (fieldD4 w) (fieldDirect w)) :
    DecodesAs mask code (formatDM mk) := by
  intro w hw
  rw [formatDM_eq_fields, ← hoperands]
  exact decodesAs_operands hrow w hw

/-! ### The load and the store -/

/-- Settles O15: a rejected address halts before any access; otherwise the three clauses are the three branches of
`execLds_eq`, the first of which keeps FLAGS. -/
theorem ldsRuleWhole : Obligations.LdsRuleWhole := by
  refine ⟨decodesAs_formatDM (op := .lds) rfl fun _ => rfl, fun d k s => ?_⟩
  rw [exec]
  refine ⟨fun hw => withDirect_rejected hw _, fun hw => ?_⟩
  rw [execLds_eq d k s hw]
  refine ⟨fun hea hd => ?_, fun hea => if_neg hea, fun hea hd => ?_⟩
  · rw [if_pos hea, if_pos hd]
    exact ⟨_, rfl, afterWrite_movedByte s d.toNat _ _, afterWrite_traceGrowsBy _ _ _ _ _⟩
  · rw [if_pos hea, if_neg hd]

/-- Settles O16: a rejected address halts before any access; otherwise the three clauses are the three branches of
`execSts_eq`, the first of which writes the addressed cell alone and keeps FLAGS. -/
theorem stsRuleWhole : Obligations.StsRuleWhole := by
  refine ⟨decodesAs_formatDM (op := .sts) rfl fun _ => rfl, fun k d s => ?_⟩
  rw [exec]
  refine ⟨fun hw => withDirect_rejected hw _, fun hw => ?_⟩
  rw [execSts_eq k d s hw]
  refine ⟨fun hd hea => ?_, fun hd => if_neg hd, fun hd hea => ?_⟩
  · rw [if_pos hd, if_pos hea]
    exact ⟨_, rfl, afterWrite_movedByte s _ (s.reg d) _, afterWrite_traceGrowsBy _ _ _ _ _⟩
  · rw [if_pos hd, if_neg hea]

end Sys2Proof.Proofs
end

section
/-!
PROOFS. The control-transfer family (spec/44_control_transfer.md): a jump by a sign-extended offset moves the pc to
`(pc + k + 1) mod 65536` and changes nothing else (R155), Rjmp always does so (R156), and Brbs and Brbc do so when the
selected flag has their polarity and fall through otherwise (R157, R158).
-/
namespace Sys2Proof.Proofs

open Sys2Proof Sys2Proof.Machine

/-- A sign-extended offset is the signed offset modulo 2^16 (30_encoding.md R85, R86). -/
theorem toNat_signExtend_word {n : Nat} (k : BitVec n) : ((k.signExtend 16).toNat : Int) = k.toInt % 65536 := by
  rw [BitVec.signExtend, BitVec.toNat_ofInt]
  omega

/-- The pc after a jump by a signed offset of any width (R155). -/
theorem jump_signExtend_pc_toNat {n : Nat} (s : State) (k : BitVec n) :
    ((s.jump (k.signExtend 16)).pc.toNat : Int) = ((s.pc.toNat : Int) + k.toInt + 1) % 65536 := by
  have hk : ((k.signExtend 16).toNat : Int) = k.toInt % 65536 := toNat_signExtend_word k
  simp only [State.jump_pc, BitVec.toNat_add, BitVec.reduceToNat]
  omega

/-- An instruction that branches when the selected flag has the value `takenWhen` meets the rule of a conditional
branch: taken it jumps, not taken it falls through (R155). -/
theorem branchRule_of_branchIf {mk : FlagIndex → BranchOffset → Instr} {takenWhen : Bool}
    (hexec : ∀ f k s, exec (mk f k) s = branchIf (selectedFlag s.flags f == takenWhen) k s) :
    BranchRule mk takenWhen := by
  intro f k s
  rw [hexec, branchIf_eq]
  by_cases h : selectedFlag s.flags f = takenWhen
  · rw [if_pos (beq_iff_eq.mpr h)]
    exact ⟨_, rfl, rfl, fun _ => jump_signExtend_pc_toNat s k, fun hnot => absurd h hnot⟩
  · rw [if_neg (mt beq_iff_eq.mp h)]
    exact ⟨_, rfl, rfl, fun htaken => absurd htaken h, fun _ => State.advance_pc_toNat s⟩

/-- Settles O17: Rjmp is the jump by its 12-bit offset. -/
theorem rjmpRuleWhole : Obligations.RjmpRuleWhole :=
  ⟨decodesAs_operands (op := .rjmp) rfl, fun k s => ⟨_, rfl, rfl, jump_signExtend_pc_toNat s k⟩⟩

/-- Settles O18: Brbs branches when the selected flag is 1. -/
theorem brbsRuleWhole : Obligations.BrbsRuleWhole :=
  ⟨decodesAs_operands (op := .brbs) rfl, branchRule_of_branchIf fun f k s => by rw [beq_true, exec, execBrbs]⟩

/-- Settles O19: Brbc branches when the selected flag is 0. -/
theorem brbcRuleWhole : Obligations.BrbcRuleWhole :=
  ⟨decodesAs_operands (op := .brbc) rfl, branchRule_of_branchIf fun f k s => by rw [beq_false, exec, execBrbc]⟩

end Sys2Proof.Proofs
end

section
/-!
PROOFS. No-operation and halt (spec/45_nop_break.md): a word decodes to an instruction exactly if the instruction's
row matches it and reads the instruction from it (R91, R94), so a row that fixes every bit has one word (R87); Nop
moves the pc alone (R171), Break writes the status alone, and only a Running engine steps (R172).
-/
namespace Sys2Proof.Proofs

open Sys2Proof Sys2Proof.Machine

/-! ### The words of an instruction -/

theorem opcode_operands (op : Opcode) (w : Word) : (op.operands w).opcode = op := by
  cases op <;> rfl

/-- A word that decodes is read by the row it matches. -/
theorem exists_row_of_decode {w : Word} {i : Instr} (h : decode w = .instr i) :
    ∃ op : Opcode, op.matcher.holds w = true ∧ op.operands w = i := by
  rw [decode] at h
  split at h
  case h_1 op hop =>
    injection h with h
    exact ⟨op, holds_of_resolveIn hop, h⟩
  case h_2 => cases h

/-- The words of an instruction are those its own row matches and reads it from. -/
theorem decode_eq_instr_iff (w : Word) (i : Instr) :
    decode w = .instr i ↔ i.opcode.matcher.holds w = true ∧ i.opcode.operands w = i := by
  constructor
  · intro h
    obtain ⟨op, hop, rfl⟩ := exists_row_of_decode h
    rw [opcode_operands]
    exact ⟨hop, rfl⟩
  · intro ⟨hrow, hi⟩
    rw [decode_of_holds hrow, hi]

/-- Format Z: an instruction without operands whose row fixes every bit has one word (R87). -/
theorem decode_eq_instr_iff_eq_code {i : Instr} (hbits : matchedBits i.opcode.matcher = BitVec.allOnes 16)
    (hoperands : ∀ w, i.opcode.operands w = i) (w : Word) :
    decode w = .instr i ↔ w = requiredCode i.opcode.matcher := by
  rw [decode_eq_instr_iff, and_iff_left (hoperands w), holds_iff, hbits, BitVec.and_allOnes]

/-! ### Nop -/

theorem exec_nop (s : State) : exec .nop s = .next s.advance := rfl

/-- Settles O20: Nop is of format Z with the code 0, the words named lie in the first range of R96, and Nop is the
advance of the pc. -/
theorem nopRuleWhole : Obligations.NopRuleWhole := by
  refine ⟨decode_eq_instr_iff_eq_code rfl fun _ => rfl, fun w hlo hhi => ?_, fun s => ?_⟩
  · exact (decode_eq_unknownCode_iff w).mpr ((no_row_holds_iff w).mpr (.inl ⟨hlo, hhi⟩))
  · exact ⟨s.advance, exec_nop s, rfl, State.advance_pc_toNat s⟩

/-! ### Break -/

theorem exec_brk (s : State) : exec .brk s = .next (s.halt .haltedBreak) := rfl

/-- Only a Running engine takes a step (47_engine_and_host.md R185). -/
theorem step_ne_next_of_halted {s : State} (hs : s.status ≠ .running) (t : State) : step s ≠ .next t :=
  fun h => hs (step_cases h).1

/-- Settles O21: Break is of format Z with the code 0x9598, it writes the status alone, and the status it writes is not
Running. -/
theorem breakRuleWhole : Obligations.BreakRuleWhole :=
  ⟨decode_eq_instr_iff_eq_code rfl fun _ => rfl,
   fun s => ⟨exec_brk s, step_ne_next_of_halted (s := s.halt .haltedBreak) nofun⟩⟩

end Sys2Proof.Proofs
end

section
/-!
PROOFS. Port input and output (spec/46_io.md): Out to a port with an output device reads its register, emits the byte
read and falls through, halting with nothing emitted where the register is missing; to any other port it only falls
through (R176, R178).
-/
namespace Sys2Proof.Proofs

open Sys2Proof Sys2Proof.Machine

/-- The state after Out has emitted the byte it read: the emission and the record are added, and the pc moves on. -/
theorem emitted_advance_eq (s : State) (l : List AccessRecord) (port : PortNum) (v : Byte) :
    ((s.withRecords l).emit port v).advance =
      { s.withRecords l with output := s.output ++ [⟨port, v⟩], pc := s.advance.pc } := rfl

/-- Settles O23: the three clauses are the three branches of `execOut_eq`, in the first and the last of which the pc
is that of `s.advance`. -/
theorem outRuleWhole : Obligations.OutRuleWhole := by
  refine ⟨decodesAs_operands (op := .out) rfl, fun port d s => ?_⟩
  rw [exec, execOut_eq]
  refine ⟨fun hp hd => ?_, fun hp hd => ?_, fun hp => ?_⟩
  · rw [if_pos hp, if_pos hd, emitted_advance_eq]
    exact ⟨_, rfl, State.advance_pc_toNat s, rfl⟩
  · rw [if_pos hp, if_neg hd]
  · rw [if_neg hp]
    exact ⟨_, rfl, rfl, State.advance_pc_toNat s⟩

end Sys2Proof.Proofs
end

section
/-!
PROOFS. The engine (spec/47_engine_and_host.md): a Running engine whose pc lies outside program memory fetches nothing
and halts by OutOfMemory (R186).
-/
namespace Sys2Proof.Proofs

open Sys2Proof Sys2Proof.Machine

/-- What a Running engine does where there is no word to fetch. -/
theorem step_of_fetch_eq_none {s : State} (hs : s.status = .running) (hf : fetch s = none) :
    step s = .next (s.halt (.haltedFault .outOfMemory)) := by
  simp only [step, hs, runningStep, hf, raiseOutOfMemory]

/-- Settles O25: outside program memory there is no word to fetch, and the halt that follows writes the status alone. -/
theorem fetchOutsideProgramMemoryHalts : Obligations.FetchOutsideProgramMemoryHalts :=
  fun _ hs hp => step_of_fetch_eq_none hs (fetch_outside hp)

end Sys2Proof.Proofs
end

section
/-!
PROOFS. The encoder and the decoder are inverse (spec/30_encoding.md sections 2 to 5): the fields of an encoded word
are the operands (R81 to R88), a word is its fixed bits beside its fields, and every row fixes exactly the bits its
format writes (R90), so nothing of a word is dropped and nothing of an instruction is lost (R94).
-/
namespace Sys2Proof.Proofs

open Sys2Proof Sys2Proof.Machine
open BitVec (extractLsb'_append_eq_of_le extractLsb'_append_eq_of_add_le extractLsb'_append_extractLsb'_eq_extractLsb'
  extractLsb'_eq_self)

/-! ### The fields of an encoded word (R81 to R88)

A field is a slice of an append: the first two of the opened lemmas find the operand it lies in, the third joins the
neighbouring slices of one operand. -/

@[simp] theorem fieldD5_encodeRR (o : BitVec 6) (d r : RegNum) : fieldD5 (encodeRR o d r) = d := by
  simp (disch := decide) only [fieldD5, encodeRR,
    extractLsb'_append_eq_of_le, extractLsb'_append_eq_of_add_le, Nat.reduceSub, extractLsb'_eq_self]

@[simp] theorem fieldR5_encodeRR (o : BitVec 6) (d r : RegNum) : fieldR5 (encodeRR o d r) = r := by
  simp (disch := decide) only [fieldR5, encodeRR,
    extractLsb'_append_eq_of_le, extractLsb'_append_eq_of_add_le, Nat.reduceSub,
    extractLsb'_append_extractLsb'_eq_extractLsb', extractLsb'_eq_self]

/-- The registers a 4-bit field can name are those with a 1 above it (10_state.md R23). -/
theorem one_append_extractLsb'_of_isUpper {d : RegNum} (hd : d.isUpper = true) : 1#1 ++ d.extractLsb' 0 4 = d := by
  revert d
  decide

theorem fieldD4_encodeRI (o : BitVec 4) {d : RegNum} (imm : Byte) (hd : d.isUpper = true) :
    fieldD4 (encodeRI o d imm) = d := by
  simp (disch := decide) only [fieldD4, encodeRI, extractLsb'_append_eq_of_le, extractLsb'_append_eq_of_add_le,
    Nat.reduceSub, extractLsb'_eq_self]
  exact one_append_extractLsb'_of_isUpper hd

@[simp] theorem fieldImm_encodeRI (o : BitVec 4) (d : RegNum) (imm : Byte) : fieldImm (encodeRI o d imm) = imm := by
  simp (disch := decide) only [fieldImm, encodeRI,
    extractLsb'_append_eq_of_le, extractLsb'_append_eq_of_add_le, Nat.reduceSub,
    extractLsb'_append_extractLsb'_eq_extractLsb', extractLsb'_eq_self]

theorem fieldD4_encodeDM (o : BitVec 5) {d : RegNum} (k : DirectField) (hd : d.isUpper = true) :
    fieldD4 (encodeDM o d k) = d := by
  simp (disch := decide) only [fieldD4, encodeDM, extractLsb'_append_eq_of_le, extractLsb'_append_eq_of_add_le,
    Nat.reduceSub, extractLsb'_eq_self]
  exact one_append_extractLsb'_of_isUpper hd

@[simp] theorem fieldDirect_encodeDM (o : BitVec 5) (d : RegNum) (k : DirectField) :
    fieldDirect (encodeDM o d k) = k := by
  simp (disch := decide) only [fieldDirect, encodeDM,
    extractLsb'_append_eq_of_le, extractLsb'_append_eq_of_add_le, Nat.reduceSub,
    extractLsb'_append_extractLsb'_eq_extractLsb', extractLsb'_eq_self]

@[simp] theorem fieldD5_encodeIO (o : BitVec 5) (port : PortNum) (d : RegNum) : fieldD5 (encodeIO o port d) = d := by
  simp (disch := decide) only [fieldD5, encodeIO,
    extractLsb'_append_eq_of_le, extractLsb'_append_eq_of_add_le, Nat.reduceSub, extractLsb'_eq_self]

@[simp] theorem fieldPort_encodeIO (o : BitVec 5) (port : PortNum) (d : RegNum) :
    fieldPort (encodeIO o port d) = port := by
  simp (disch := decide) only [fieldPort, encodeIO,
    extractLsb'_append_eq_of_le, extractLsb'_append_eq_of_add_le, Nat.reduceSub,
    extractLsb'_append_extractLsb'_eq_extractLsb', extractLsb'_eq_self]

@[simp] theorem fieldFlag_encodeBR (o : BitVec 6) (s : FlagIndex) (k : BranchOffset) :
    fieldFlag (encodeBR o s k) = s := by
  simp (disch := decide) only [fieldFlag, encodeBR, extractLsb'_append_eq_of_add_le, extractLsb'_eq_self]

@[simp] theorem fieldBranch_encodeBR (o : BitVec 6) (s : FlagIndex) (k : BranchOffset) :
    fieldBranch (encodeBR o s k) = k := by
  simp (disch := decide) only [fieldBranch, encodeBR,
    extractLsb'_append_eq_of_le, extractLsb'_append_eq_of_add_le, Nat.reduceSub, extractLsb'_eq_self]

@[simp] theorem fieldJump_append (o : BitVec 4) (k : JumpOffset) : fieldJump (o ++ k) = k := by
  simp (disch := decide) only [fieldJump, extractLsb'_append_eq_of_add_le, extractLsb'_eq_self]

@[simp] theorem fieldD5_append (hi : BitVec 7) (d : RegNum) (lo : BitVec 4) : fieldD5 (hi ++ d ++ lo) = d := by
  simp (disch := decide) only [fieldD5,
    extractLsb'_append_eq_of_le, extractLsb'_append_eq_of_add_le, Nat.reduceSub, extractLsb'_eq_self]

/-! ### Decode of encode -/

/-- The word of an instruction matches the instruction's own row (R90). -/
theorem holds_encode (i : Instr) : i.opcode.matcher.holds (encode i) = true := by
  cases i with
  | nop => exact Laws.EncodeInRow.nop
  | add d r => exact Laws.EncodeInRow.add d r
  | sub d r => exact Laws.EncodeInRow.sub d r
  | adc d r => exact Laws.EncodeInRow.adc d r
  | and d r => exact Laws.EncodeInRow.and d r
  | eor d r => exact Laws.EncodeInRow.eor d r
  | or d r => exact Laws.EncodeInRow.or d r
  | mov d r => exact Laws.EncodeInRow.mov d r
  | subi d imm => exact Laws.EncodeInRow.subi d imm
  | lsr d => exact Laws.EncodeInRow.lsr d
  | brk => exact Laws.EncodeInRow.brk
  | lds d k => exact Laws.EncodeInRow.lds d k
  | sts k d => exact Laws.EncodeInRow.sts k d
  | inp d port => exact Laws.EncodeInRow.inp d port
  | out port d => exact Laws.EncodeInRow.out port d
  | rjmp k => exact Laws.EncodeInRow.rjmp k
  | ldi d imm => exact Laws.EncodeInRow.ldi d imm
  | brbs f k => exact Laws.EncodeInRow.brbs f k
  | brbc f k => exact Laws.EncodeInRow.brbc f k

/-- The row of an instruction reads the instruction back from its word (R94). -/
theorem operands_encode {i : Instr} (hi : i.wf = true) : i.opcode.operands (encode i) = i := by
  cases i with
  | nop | brk => rfl
  | add | sub | adc | and | eor | or | mov | lsr | inp | out | rjmp | brbs | brbc =>
    simp [Instr.opcode, Opcode.operands, encode]
  | subi d imm | ldi d imm => simp [Instr.opcode, Opcode.operands, encode, fieldD4_encodeRI _ imm hi]
  | lds d k | sts k d => simp [Instr.opcode, Opcode.operands, encode, fieldD4_encodeDM _ k hi]

/-- Settles O2: the word of an instruction matches the instruction's row, which reads the operands back. -/
theorem decodeOfEncode : Obligations.DecodeOfEncode :=
  fun i hi => (decode_eq_instr_iff (encode i) i).mpr ⟨holds_encode i, operands_encode hi⟩

/-! ### A word is its fixed bits beside its fields -/

/-- A row that looks at every bit of a slice of the word fixes that slice (R91). -/
theorem extractLsb'_eq_of_holds {m : Matcher} {w : Word} (hm : m.holds w = true) {start len : Nat}
    {bits : BitVec len} (hmask : (matchedBits m).extractLsb' start len = BitVec.allOnes len)
    (hcode : (requiredCode m).extractLsb' start len = bits) : w.extractLsb' start len = bits := by
  rw [holds_iff] at hm
  rw [← hcode, ← hm, BitVec.extractLsb'_and, hmask, BitVec.and_allOnes]

theorem encodeRR_fields {w : Word} {o : BitVec 6} (ho : w.extractLsb' 10 6 = o) :
    encodeRR o (fieldD5 w) (fieldR5 w) = w := by
  simp (disch := decide) only [← ho, encodeRR, fieldD5, fieldR5,
    extractLsb'_append_eq_of_le, extractLsb'_append_eq_of_add_le, Nat.reduceSub,
    extractLsb'_append_extractLsb'_eq_extractLsb', extractLsb'_eq_self]

theorem encodeRI_fields {w : Word} {o : BitVec 4} (ho : w.extractLsb' 12 4 = o) :
    encodeRI o (fieldD4 w) (fieldImm w) = w := by
  simp (disch := decide) only [← ho, encodeRI, fieldD4, fieldImm,
    extractLsb'_append_eq_of_le, extractLsb'_append_eq_of_add_le, Nat.reduceSub,
    extractLsb'_append_extractLsb'_eq_extractLsb', extractLsb'_eq_self]

theorem encodeDM_fields {w : Word} {o : BitVec 5} (ho : w.extractLsb' 11 5 = o) :
    encodeDM o (fieldD4 w) (fieldDirect w) = w := by
  simp (disch := decide) only [← ho, encodeDM, fieldD4, fieldDirect,
    extractLsb'_append_eq_of_le, extractLsb'_append_eq_of_add_le, Nat.reduceSub,
    extractLsb'_append_extractLsb'_eq_extractLsb', extractLsb'_eq_self]

theorem encodeIO_fields {w : Word} {o : BitVec 5} (ho : w.extractLsb' 11 5 = o) :
    encodeIO o (fieldPort w) (fieldD5 w) = w := by
  simp (disch := decide) only [← ho, encodeIO, fieldPort, fieldD5,
    extractLsb'_append_eq_of_le, extractLsb'_append_eq_of_add_le, Nat.reduceSub,
    extractLsb'_append_extractLsb'_eq_extractLsb', extractLsb'_eq_self]

theorem encodeBR_fields {w : Word} {o : BitVec 6} (ho : w.extractLsb' 10 6 = o) :
    encodeBR o (fieldFlag w) (fieldBranch w) = w := by
  simp (disch := decide) only [← ho, encodeBR, fieldFlag, fieldBranch,
    extractLsb'_append_extractLsb'_eq_extractLsb', extractLsb'_eq_self]

theorem encodeRjmp_fields {w : Word} (ho : w.extractLsb' 12 4 = 0b1100#4) : encode (.rjmp (fieldJump w)) = w := by
  simp (disch := decide) only [encode, ← ho, fieldJump,
    extractLsb'_append_extractLsb'_eq_extractLsb', extractLsb'_eq_self]

/-- Lsr fixes bits on both sides of its field. -/
theorem encodeLsr_fields {w : Word} (hhi : w.extractLsb' 9 7 = 0b1001010#7) (hlo : w.extractLsb' 0 4 = 0b0110#4) :
    encode (.lsr (fieldD5 w)) = w := by
  simp (disch := decide) only [encode, ← hhi, ← hlo, fieldD5,
    extractLsb'_append_extractLsb'_eq_extractLsb', extractLsb'_eq_self]

/-- A row that fixes every bit matches one word (R87). -/
theorem eq_requiredCode_of_holds {m : Matcher} {w : Word} (hbits : matchedBits m = BitVec.allOnes 16)
    (hm : m.holds w = true) : w = requiredCode m := by
  rwa [holds_iff, hbits, BitVec.and_allOnes] at hm

/-! ### Encode of decode -/

/-- A row reads from a word it matches an instruction whose word that is. -/
theorem encode_operands {op : Opcode} {w : Word} (h : op.matcher.holds w = true) : encode (op.operands w) = w := by
  cases op with
  | nop | brk => exact (eq_requiredCode_of_holds rfl h).symm
  | add | sub | adc | and | eor | or | mov => exact encodeRR_fields (extractLsb'_eq_of_holds h rfl rfl)
  | subi | ldi => exact encodeRI_fields (extractLsb'_eq_of_holds h rfl rfl)
  | lds | sts => exact encodeDM_fields (extractLsb'_eq_of_holds h rfl rfl)
  | inp | out => exact encodeIO_fields (extractLsb'_eq_of_holds h rfl rfl)
  | brbs | brbc => exact encodeBR_fields (extractLsb'_eq_of_holds h rfl rfl)
  | rjmp => exact encodeRjmp_fields (extractLsb'_eq_of_holds h rfl rfl)
  | lsr => exact encodeLsr_fields (extractLsb'_eq_of_holds h rfl rfl) (extractLsb'_eq_of_holds h rfl rfl)

/-- A 4-bit register field names one of R16..R31 (10_state.md R23). -/
theorem fieldD4_isUpper (w : Word) : (fieldD4 w).isUpper = true := by
  have hprefix (x : BitVec 4) : RegNum.isUpper (1#1 ++ x) = true := by
    revert x
    decide
  exact hprefix _

theorem wf_operands (op : Opcode) (w : Word) : (op.operands w).wf = true := by
  cases op with
  | subi | ldi | lds | sts => exact fieldD4_isUpper w
  | nop | add | sub | adc | and | eor | or | mov | lsr | brk | inp | out | rjmp | brbs | brbc => rfl

/-- Settles O3: a word that decodes is read by a row it matches. -/
theorem encodeOfDecode : Obligations.EncodeOfDecode := by
  intro w i h
  obtain ⟨op, hop, rfl⟩ := exists_row_of_decode h
  exact ⟨wf_operands op w, encode_operands hop⟩

/-- Settles O1: each word is evaluated. -/
theorem writtenOutWordsDecode : Obligations.WrittenOutWordsDecode := by
  unfold Obligations.WrittenOutWordsDecode
  decide

end Sys2Proof.Proofs
end

section
/-!
PROOFS. What holds of every instruction because it holds of the operations instructions are made of. `ClosedUnderOps`
names those operations once; two properties have them: to answer a next state, so that a Running engine always steps
(spec/47_engine_and_host.md section 2), and to do the same with the trace taken away, so that the trace never affects
a step (10_state.md R35, 20_memory.md R66).
-/
namespace Sys2Proof.Proofs

open Sys2Proof Sys2Proof.Machine

/-! ### The operations an instruction is made of -/

/-- A property of state functions that the operations of spec/40 to 46 have and hand on from their continuations. -/
structure ClosedUnderOps (P : (State → Result) → Prop) : Prop where
  /-- Falling through (10_state.md R27). -/
  finish : P finish
  /-- Break (45_nop_break.md R172). -/
  brk : P execBrk
  /-- A jump (44_control_transfer.md R155). -/
  jump : ∀ k, P fun s => .next (s.jump k)
  /-- In (46_io.md R177), whose input no other instruction looks at. -/
  inp : ∀ d port, P (execInp d port)
  /-- An emission (46_io.md R178). -/
  emit : ∀ {port v k}, P k → P fun s => k (s.emit port v)
  /-- FLAGS written (10_state.md R30). -/
  setFlags : ∀ {f k}, P k → P fun s => k { s with flags := f }
  /-- FLAGS looked at. -/
  onFlags : ∀ {k : Byte → State → Result}, (∀ f, P (k f)) → P fun s => k s.flags s
  /-- A data read (20_memory.md R53). -/
  read : ∀ {a k}, (∀ v, P (k v)) → P fun s => readCell a s k
  /-- A data write (20_memory.md R53). -/
  write : ∀ {a v k}, P k → P fun s => writeCell a v s k
  /-- A direct operand (43_direct_memory.md R147). -/
  direct : ∀ {k} {cont : Nat → State → Result}, (∀ ea, P (cont ea)) →
    P fun s => withDirect k s fun ea => cont ea s

namespace ClosedUnderOps

variable {P : (State → Result) → Prop} (h : ClosedUnderOps P)
include h

theorem writeAlu (d : RegNum) (r : AluResult) : P (writeAlu d r) :=
  h.write (h.setFlags h.finish)

theorem combineRegs (op : Byte → Byte → Byte → AluResult) (d r : RegNum) : P (combineRegs op d r) :=
  h.read fun a => h.read fun b => h.onFlags (k := fun f => Machine.writeAlu d (op f a b)) fun _ => h.writeAlu d _

theorem modifyReg (op : Byte → Byte → AluResult) (d : RegNum) : P (modifyReg op d) :=
  h.read fun a => h.onFlags (k := fun f => Machine.writeAlu d (op f a)) fun _ => h.writeAlu d _

/-- Mov, Lds and Sts: a read and a write of the byte read. -/
theorem copyCell (a b : Nat) : P fun s => readCell a s fun v s => writeCell b v s Machine.finish :=
  h.read (k := fun v s => writeCell b v s Machine.finish) fun _ => h.write h.finish

theorem branchIf (taken : Bool) (k : BranchOffset) : P (branchIf taken k) := by
  cases taken with
  | false => exact h.finish
  | true => exact h.jump _

theorem out (port : PortNum) (d : RegNum) : P (execOut port d) := by
  unfold execOut
  cases hasOutputDevice port with
  | false => exact h.finish
  | true => exact h.read (a := d.toNat) (k := fun v s => Machine.finish (s.emit port v)) fun _ => h.emit h.finish

/-- Every instruction is made of these operations. -/
theorem exec (i : Instr) : P (exec i) := by
  cases i with
  | nop => exact h.finish
  | add d r | sub d r | adc d r | and d r | eor d r | or d r => exact h.combineRegs _ d r
  | mov d r => exact h.copyCell r.toNat d.toNat
  | subi d imm => exact h.modifyReg (fun f a => aluSub f a imm) d
  | lsr d => exact h.modifyReg aluLsr d
  | brk => exact h.brk
  | lds d k => exact h.direct fun ea => h.copyCell ea d.toNat
  | sts k d => exact h.direct fun ea => h.copyCell d.toNat ea
  | inp d port => exact h.inp d port
  | out port d => exact h.out port d
  | rjmp k => exact h.jump _
  | ldi d imm => exact h.write h.finish
  | brbs f k => exact h.onFlags (k := fun flags => Machine.branchIf (selectedFlag flags f) k) fun _ => h.branchIf _ k
  | brbc f k => exact h.onFlags (k := fun flags => Machine.branchIf (!selectedFlag flags f) k) fun _ => h.branchIf _ k

end ClosedUnderOps

/-! ### Every instruction answers a next state -/

/-- The function answers a next state everywhere: it neither stops with a Lean fault nor refuses. -/
def AlwaysNext (f : State → Result) : Prop := ∀ s, ∃ t, f s = .next t

theorem alwaysNext_execInp (d : RegNum) (port : PortNum) : AlwaysNext (execInp d port) := by
  intro s
  by_cases hp : port.toNat = 0
  · cases hi : s.input with
    | nil => exact ⟨_, execInp_held hp hi⟩
    | cons v rest =>
      by_cases hd : s.hasCell d.toNat
      · exact ⟨_, execInp_taken hp hi hd⟩
      · exact ⟨_, execInp_missing hp hi hd⟩
  · exact ⟨_, execInp_other hp⟩

theorem alwaysNext_closedUnderOps : ClosedUnderOps AlwaysNext where
  finish _ := ⟨_, rfl⟩
  brk _ := ⟨_, rfl⟩
  jump _ _ := ⟨_, rfl⟩
  inp := alwaysNext_execInp
  emit hk _ := hk _
  setFlags hk _ := hk _
  onFlags hk s := hk s.flags s
  read {a k} hk s := by
    beta_reduce
    by_cases ha : s.hasCell a
    · rw [readCell_ok ha]
      exact hk _ _
    · exact ⟨_, readCell_halts ha k⟩
  write {a v k} hk s := by
    beta_reduce
    by_cases ha : s.hasCell a
    · rw [writeCell_ok v ha]
      exact hk _
    · exact ⟨_, writeCell_halts v ha k⟩
  direct {k cont} hcont s := by
    beta_reduce
    by_cases hw : windowRejects s.params (effectiveAddress s.params k)
    · exact ⟨_, withDirect_rejected hw _⟩
    · rw [withDirect_ok hw]
      exact hcont _ s

/-- No instruction's meaning ends in a Lean fault or a refusal. -/
theorem exists_exec_next (i : Instr) (s : State) : ∃ t, exec i s = .next t :=
  alwaysNext_closedUnderOps.exec i s

/-- What a Running engine does with a word it fetches and decodes (47_engine_and_host.md R188). -/
theorem step_of_decode {s : State} {i : Instr} (hs : s.status = .running) (hp : s.pc.toNat < s.params.progSize)
    (hd : decode (Bank.read s.pm s.pc.toNat) = .instr i) : step s = exec i s := by
  simp only [step, hs, runningStep, fetch_inside hp, hd]

/-- Settles O24: there is a word to fetch, it decodes, and the step is the instruction. -/
theorem stepRunsTheDecodedInstruction : Obligations.StepRunsTheDecodedInstruction :=
  fun _ _ hs hp hd => step_of_decode hs hp hd

/-- Settles O28: where a word is fetched and decodes the step is an instruction, which answers a next state; otherwise
it is one of the two halts. -/
theorem runningEngineAlwaysSteps : Obligations.RunningEngineAlwaysSteps := by
  intro s hs
  by_cases hp : s.pc.toNat < s.params.progSize
  · cases hd : decode (Bank.read s.pm s.pc.toNat) with
    | instr i =>
      rw [step_of_decode hs hp hd]
      exact exists_exec_next i s
    | unknownCode w => exact ⟨_, step_of_unknownCode hs hp hd⟩
  · exact ⟨_, step_of_fetch_eq_none hs (fetch_outside hp)⟩

/-! ### The trace affects nothing -/

/-- Taking the trace away before or after the function is the same. -/
def CommutesWithErasure (f : State → Result) : Prop := ∀ s, f s.eraseTrace = eraseTraceOf (f s)

theorem commutesWithErasure_execInp (d : RegNum) (port : PortNum) : CommutesWithErasure (execInp d port) := by
  intro s
  by_cases hp : port.toNat = 0
  · cases hi : s.input with
    | nil => rw [execInp_held hp hi, execInp_held (s := s.eraseTrace) hp hi]; rfl
    | cons v rest =>
      by_cases hd : s.hasCell d.toNat
      · rw [execInp_taken hp hi hd, execInp_taken (s := s.eraseTrace) hp hi hd]; rfl
      · rw [execInp_missing hp hi hd, execInp_missing (s := s.eraseTrace) hp hi hd]; rfl
  · rw [execInp_other hp, execInp_other hp]; rfl

/-- No operation looks at the trace, and with its switch off none of their records is kept. -/
theorem commutesWithErasure_closedUnderOps : ClosedUnderOps CommutesWithErasure where
  finish _ := rfl
  brk _ := rfl
  jump _ _ := rfl
  inp := commutesWithErasure_execInp
  emit {port v k} hk s := hk (s.emit port v)
  setFlags {f k} hk s := hk { s with flags := f }
  onFlags hk s := hk s.flags s
  read {a k} hk s := by
    beta_reduce
    by_cases ha : s.hasCell a
    · rw [readCell_ok ha, readCell_ok (s := s.eraseTrace) ha, ← hk]; rfl
    · rw [readCell_halts ha, readCell_halts (s := s.eraseTrace) ha]; rfl
  write {a v k} hk s := by
    beta_reduce
    by_cases ha : s.hasCell a
    · rw [writeCell_ok v ha, writeCell_ok (s := s.eraseTrace) v ha, ← hk]; rfl
    · rw [writeCell_halts v ha, writeCell_halts (s := s.eraseTrace) v ha]; rfl
  direct {k cont} hcont s := by
    beta_reduce
    by_cases hw : windowRejects s.params (effectiveAddress s.params k)
    · rw [withDirect_rejected hw, withDirect_rejected (s := s.eraseTrace) hw]; rfl
    · rw [withDirect_ok hw, withDirect_ok (s := s.eraseTrace) hw]
      exact hcont _ s

theorem commutesWithErasure_runningStep : CommutesWithErasure runningStep := by
  intro s
  have hfetch : fetch s.eraseTrace = fetch s := rfl
  rw [runningStep, runningStep, hfetch]
  cases fetch s with
  | none => rfl
  | some w =>
    cases hd : decode w with
    | instr i => simp only [hd]; exact commutesWithErasure_closedUnderOps.exec i s
    | unknownCode _ => simp only [hd]; rfl

theorem commutesWithErasure_step : CommutesWithErasure step := by
  intro s
  rw [step, step, State.eraseTrace_status]
  cases s.status with
  | running => exact commutesWithErasure_runningStep s
  | haltedBreak | haltedFault kind => rfl

/-- Settles O40: both outcomes, with the trace taken away, are the step of the one state the two erase to. -/
theorem traceNeverAffectsAStep : Obligations.TraceNeverAffectsAStep := by
  intro s u h
  rw [← commutesWithErasure_step s, ← commutesWithErasure_step u, h]

end Sys2Proof.Proofs
end

section
/-!
PROOFS. The exceptions and the invariant (spec/60_exceptions.md, 10_state.md section 4): rules about every step, each
a case analysis over what a step and an instruction can do (`step_cases`, `exec_effect`).
-/
namespace Sys2Proof.Proofs

open Sys2Proof Sys2Proof.Machine

/-- A step that answers a next state is a halt that writes the status alone, or the effect of an instruction. -/
theorem step_effect {s t : State} (h : step s = .next t) :
    (∃ kind, t = s.halt (.haltedFault kind)) ∨ ∃ i, ExecEffect i s t := by
  obtain ⟨-, ⟨-, ht⟩ | ⟨-, -, ht⟩ | ⟨-, i, -, hexec⟩⟩ := step_cases h
  · exact .inl ⟨_, ht⟩
  · exact .inl ⟨_, ht⟩
  · exact .inr ⟨i, exec_effect hexec⟩

/-! ### Halts -/

/-- Settles O27: a step that answers a next state starts Running. -/
theorem haltedEngineTakesNoStep : Obligations.HaltedEngineTakesNoStep :=
  fun _ hs t => step_ne_next_of_halted hs t

/-- What a halt leaves (60_exceptions.md R214): the state before it, but for the status, further trace records, and the
port-0 input with the draw that decides over it. -/
def HaltOf (s t : State) : Prop :=
  ∃ (why : Status) (records : List AccessRecord) (input : List Byte) (freeIndex : Nat),
    t = { (s.withRecords records).halt why with input := input, freeIndex := freeIndex }

theorem haltOf_halt (s : State) (why : Status) : HaltOf s (s.halt why) :=
  ⟨why, [], s.input, s.freeIndex, by rw [State.withRecords_nil]; rfl⟩

theorem haltOf_afterOutOfMemory (s : State) (l : List AccessRecord) : HaltOf s (s.afterOutOfMemory l) :=
  ⟨.haltedFault .outOfMemory, l, s.input, s.freeIndex, rfl⟩

theorem haltOf_drawFaultingInput (s : State) (rest : List Byte) (why : Status) :
    HaltOf s ((s.drawFaultingInput rest).halt why) :=
  ⟨why, [], (s.drawFaultingInput rest).input, s.freeIndex + 1, by rw [State.withRecords_nil]; rfl⟩

/-- Every effect that is not a halt keeps the status. -/
theorem haltOf_or_status_eq_of_execEffect {i : Instr} {s t : State} (h : ExecEffect i s t) :
    HaltOf s t ∨ t.status = s.status := by
  cases h with
  | held | pcOnly | wrote | took | emitted => exact .inr rfl
  | broke => exact .inl (haltOf_halt s _)
  | missing l => exact .inl (haltOf_afterOutOfMemory s l)
  | inputMissing v rest => exact .inl (haltOf_drawFaultingInput s rest _)

/-- Settles O29: the step that halts is a halt before any instruction or the effect of an instruction that does not
keep the status. -/
theorem haltingStepChangesOnlyTheStatus : Obligations.HaltingStepChangesOnlyTheStatus := by
  intro s t hs h ht
  have hhalt : HaltOf s t := by
    obtain ⟨kind, rfl⟩ | ⟨i, heffect⟩ := step_effect h
    · exact haltOf_halt s _
    · exact (haltOf_or_status_eq_of_execEffect heffect).resolve_right fun hkept => ht (hkept.trans hs)
  obtain ⟨why, records, input, freeIndex, rfl⟩ := hhalt
  exact ⟨rfl, rfl, rfl, rfl, rfl, rfl, rfl, records, rfl⟩

/-- Settles O30: the effects that write the status are those of a missing cell and of Break. -/
theorem onlyBreakHaltsCleanly : Obligations.OnlyBreakHaltsCleanly := by
  intro i s t h
  cases exec_effect h with
  | held | pcOnly | wrote | took | emitted => exact .inl rfl
  | missing | inputMissing => exact .inr (.inl rfl)
  | broke hi => exact .inr (.inr ⟨hi, rfl⟩)

/-! ### What no step writes, and what moves in order -/

/-- Settles O36: no effect writes any of the three. -/
theorem stepNeverWritesProgramMemory : Obligations.StepNeverWritesProgramMemory := by
  intro s t h
  obtain ⟨kind, rfl⟩ | ⟨i, heffect⟩ := step_effect h
  · exact ⟨rfl, rfl, rfl⟩
  · cases heffect <;> exact ⟨rfl, rfl, rfl⟩

/-- Settles O37: only a write of an ALU result can change FLAGS. -/
theorem flagsChangeOnlyAsTabulated : Obligations.FlagsChangeOnlyAsTabulated := by
  intro i s t h
  cases exec_effect h with
  | wrote a v f l ha hl hc hzn hp => exact ⟨hc, hzn, hp⟩
  | held | pcOnly | broke | missing | inputMissing | took | emitted =>
    exact ⟨fun _ => rfl, fun _ => ⟨rfl, rfl⟩, rfl⟩

/-- Settles O39: only Out emits, one observation at the end; only In takes, the oldest byte. -/
theorem portSequencesMoveInOrder : Obligations.PortSequencesMoveInOrder := by
  intro s t h
  obtain ⟨kind, rfl⟩ | ⟨i, heffect⟩ := step_effect h
  · exact ⟨.inl rfl, .inl rfl⟩
  cases heffect with
  | held | pcOnly | broke | missing | wrote => exact ⟨.inl rfl, .inl rfl⟩
  | emitted port v l hport => exact ⟨.inr ⟨⟨port, v⟩, hport, rfl⟩, .inl rfl⟩
  | took a v rest l hi => exact ⟨.inl rfl, .inr ⟨v, hi⟩⟩
  | inputMissing v rest hi =>
    refine ⟨.inl rfl, ?_⟩
    rw [State.halt_input, State.drawFaultingInput_input]
    split
    · exact .inr ⟨v, hi⟩
    · exact .inl rfl

/-! ### The invariant -/

/-- The invariant reads the parameters, the two banks, FLAGS, the emissions and the trace, and nothing else. -/
theorem inv_congr {s t : State} (h : Inv s) (hparams : t.params = s.params) (hdm : t.dm = s.dm) (hpm : t.pm = s.pm)
    (hflags : t.flags = s.flags) (houtput : t.output = s.output) (htrace : t.trace = s.trace) : Inv t where
  dmCanonical := hdm ▸ h.dmCanonical
  dmWithin := hparams ▸ hdm ▸ h.dmWithin
  pmCanonical := hpm ▸ h.pmCanonical
  pmWithin := hparams ▸ hpm ▸ h.pmWithin
  paddingZero := hflags ▸ h.paddingZero
  emittedFromDevices := houtput ▸ h.emittedFromDevices
  tracedWithin := hparams ▸ htrace ▸ h.tracedWithin

theorem inv_halt {s : State} (h : Inv s) (why : Status) : Inv (s.halt why) :=
  inv_congr h rfl rfl rfl rfl rfl rfl

theorem mem_trace_withRecords {s : State} {l : List AccessRecord} {r : AccessRecord}
    (hr : r ∈ (s.withRecords l).trace) : r ∈ s.trace ∨ r ∈ l := by
  rw [State.withRecords_trace] at hr
  split at hr
  · exact List.mem_append.mp hr
  · exact .inl hr

/-- Records of existing cells may join the trace (20_memory.md R66). -/
theorem inv_withRecords {s : State} {l : List AccessRecord} (h : Inv s) (hl : ∀ r ∈ l, s.hasCell r.addr) :
    Inv (s.withRecords l) :=
  { h with tracedWithin := fun r hr => (mem_trace_withRecords hr).elim (h.tracedWithin r) (hl r) }

/-- A write of an existing cell that keeps the padding bits. -/
theorem inv_afterWrite {s : State} {a : Nat} {f : Byte} {l : List AccessRecord} (v : Byte) (h : Inv s)
    (ha : s.hasCell a) (hl : ∀ r ∈ l, s.hasCell r.addr) (hp : flagPadding f = flagPadding s.flags) :
    Inv (s.afterWrite a v f l) :=
  { inv_withRecords h hl with
    dmCanonical := Bank.wf_write a v h.dmCanonical
    dmWithin := Bank.within_write v h.dmWithin ha
    paddingZero := hp.trans h.paddingZero }

/-- An emission from a port with a device (46_io.md R176). -/
theorem inv_emit {s : State} {port : PortNum} (v : Byte) (h : Inv s) (hport : port.toNat < 3) :
    Inv (s.emit port v) :=
  { h with
    emittedFromDevices := by
      intro e he
      rw [State.emit_output] at he
      rcases List.mem_append.mp he with hold | hnew
      · exact h.emittedFromDevices e hold
      · rw [List.mem_singleton.mp hnew]
        exact hport }

theorem inv_of_execEffect {i : Instr} {s t : State} (h : Inv s) (heffect : ExecEffect i s t) : Inv t := by
  cases heffect with
  | held => exact h
  | pcOnly pc => exact inv_congr h rfl rfl rfl rfl rfl rfl
  | broke => exact inv_halt h _
  | missing l hl => exact inv_halt (inv_withRecords h hl) _
  | inputMissing v rest => exact inv_congr h rfl rfl rfl rfl rfl rfl
  | wrote a v f l ha hl hc hzn hp => exact inv_afterWrite v h ha hl hp
  | took a v rest l hi ha hl =>
    have htaken : Inv { s with input := rest } := inv_congr h rfl rfl rfl rfl rfl rfl
    exact inv_afterWrite v htaken ha hl rfl
  | emitted port v l hport hl =>
    exact inv_congr (inv_emit v (inv_withRecords h hl) hport) rfl rfl rfl rfl rfl rfl

/-- Settles O41: a halt writes nothing the invariant reads, and every effect of an instruction keeps it. -/
theorem stepKeepsInvariant : Obligations.StepKeepsInvariant := by
  intro s t hs h
  obtain ⟨kind, rfl⟩ | ⟨i, heffect⟩ := step_effect h
  · exact inv_halt hs _
  · exact inv_of_execEffect hs heffect

theorem inv_construct (p : Params) : Inv (State.construct p) where
  dmCanonical := Bank.wf_nil
  dmWithin := Bank.within_nil _
  pmCanonical := Bank.wf_nil
  pmWithin := Bank.within_nil _
  paddingZero := by rw [State.construct_flags]; decide
  emittedFromDevices _ h := nomatch h
  tracedWithin _ h := nomatch h

/-- Settles O42: reset is construction with the default parameters. -/
theorem resetHasInvariant : Obligations.ResetHasInvariant := inv_construct Params.default

theorem inv_installProgram {s : State} (words : List Word) (h : Inv s) : Inv (installProgram words s).1 :=
  { h with
    pmCanonical := installFrom_wf _ _ words _ h.pmCanonical
    pmWithin := installFrom_within _ _ words _ h.pmWithin }

/-- Settles O43: reset leaves what construction leaves, install writes program memory alone, and the other two write
nothing the invariant reads. -/
theorem hostOperationsKeepInvariant : Obligations.HostOperationsKeepInvariant := fun s hs =>
  ⟨inv_congr (inv_construct s.params) rfl rfl rfl rfl rfl rfl, fun words => inv_installProgram words hs,
   fun _ => inv_congr hs rfl rfl rfl rfl rfl rfl, fun _ => inv_congr hs rfl rfl rfl rfl rfl rfl⟩

/-! ### Branches on a padding bit -/

theorem selectedFlag_eq_flagPadding (f : Byte) {i : FlagIndex} (hi : 3 ≤ i.toNat) :
    selectedFlag f i = (flagPadding f).getLsbD (i.toNat - 3) := by
  have hlt : i.toNat - 3 < 5 := by omega
  rw [selectedFlag, flagAt, flagPadding, BitVec.getLsbD_extractLsb', decide_eq_true hlt, Bool.true_and,
    Nat.add_sub_cancel' hi]

theorem selectedFlag_of_inv {s : State} (h : Inv s) {i : FlagIndex} (hi : 3 ≤ i.toNat) :
    selectedFlag s.flags i = false := by
  rw [selectedFlag_eq_flagPadding _ hi, h.paddingZero]
  exact BitVec.getLsbD_zero

/-- A branch offset is the same offset in the wider field of Rjmp (30_encoding.md R85, R86). -/
theorem jumpOffset_signExtend (k : BranchOffset) : jumpOffset (k.signExtend 12) = branchOffset k := by
  revert k
  simp only [jumpOffset, branchOffset]
  decide

/-- Settles O38: the selected bit is a padding bit, which the invariant has at 0. -/
theorem paddingBitBranches : Obligations.PaddingBitBranches := by
  intro f k s hs hf
  have hflag : selectedFlag s.flags f = false := selectedFlag_of_inv hs hf
  show branchIf (selectedFlag s.flags f) k s = .next s.advance ∧
    branchIf (!selectedFlag s.flags f) k s = .next (s.jump (jumpOffset (k.signExtend 12)))
  rw [hflag, jumpOffset_signExtend]
  exact ⟨rfl, rfl⟩

end Sys2Proof.Proofs
end

section
/-!
PROOFS. When an instruction runs out of memory (spec/60_exceptions.md section 1, 43_direct_memory.md section 2):
exactly where a cell it accesses is missing or the window check rejects its address (R212), so with the 32 registers
present by Lds and Sts alone (40_alu_register.md R111), and by these never with the defaults and 128 cells (R151).
-/
namespace Sys2Proof.Proofs

open Sys2Proof Sys2Proof.Machine

/-! ### Answers that run out of memory under a condition -/

/-- If this is a next state, it is halted by OutOfMemory exactly if `p`. -/
def RunsOutIff (r : Result) (p : Prop) : Prop := ∀ t, r = .next t → (t.status = .haltedFault .outOfMemory ↔ p)

theorem runsOutIff_congr {r : Result} {p q : Prop} (h : RunsOutIff r p) (hpq : p ↔ q) : RunsOutIff r q :=
  fun t ht => (h t ht).trans hpq

theorem runsOutIff_of_running {t : State} (ht : t.status = .running) : RunsOutIff (.next t) False := by
  intro u hu
  injection hu with hu
  simp [← hu, ht]

theorem runsOutIff_of_halted {t : State} {p : Prop} (ht : t.status = .haltedFault .outOfMemory) (hp : p) :
    RunsOutIff (.next t) p := by
  intro u hu
  injection hu with hu
  simp [← hu, ht, hp]

/-- An access: it goes on where its condition holds and ends in the halt where it does not. -/
theorem runsOutIff_ite {c p : Prop} [Decidable c] {r : Result} {s : State} {l : List AccessRecord}
    (h : RunsOutIff r p) : RunsOutIff (if c then r else .next (s.afterOutOfMemory l)) (¬ c ∨ p) := by
  split
  · next hc => exact runsOutIff_congr h (by simp [hc])
  · next hc => exact runsOutIff_of_halted rfl (.inl hc)

/-! ### The instructions -/

variable {s : State}

theorem runsOutIff_combineRegs (op : Byte → Byte → Byte → AluResult) (d r : RegNum) (hs : s.status = .running) :
    RunsOutIff (combineRegs op d r s) (¬ s.hasCell d.toNat ∨ ¬ s.hasCell r.toNat ∨ False) := by
  rw [combineRegs_eq]
  exact runsOutIff_ite (runsOutIff_ite (runsOutIff_of_running hs))

theorem runsOutIff_modifyReg (op : Byte → Byte → AluResult) (d : RegNum) (hs : s.status = .running) :
    RunsOutIff (modifyReg op d s) (¬ s.hasCell d.toNat ∨ False) := by
  rw [modifyReg_eq]
  exact runsOutIff_ite (runsOutIff_of_running hs)

theorem runsOutIff_execMov (d r : RegNum) (hs : s.status = .running) :
    RunsOutIff (execMov d r s) (¬ s.hasCell r.toNat ∨ ¬ s.hasCell d.toNat ∨ False) := by
  rw [execMov_eq]
  exact runsOutIff_ite (runsOutIff_ite (runsOutIff_of_running hs))

theorem runsOutIff_execLdi (d : RegNum) (imm : Byte) (hs : s.status = .running) :
    RunsOutIff (execLdi d imm s) (¬ s.hasCell d.toNat ∨ False) := by
  rw [execLdi, writeReg_finish_eq]
  exact runsOutIff_ite (runsOutIff_of_running hs)

theorem runsOutIff_execLds (d : RegNum) (k : DirectField) (hs : s.status = .running) :
    RunsOutIff (execLds d k s) (windowRejects s.params (effectiveAddress s.params k) ∨
      ¬ s.hasCell (effectiveAddress s.params k) ∨ ¬ s.hasCell d.toNat ∨ False) := by
  by_cases hw : windowRejects s.params (effectiveAddress s.params k)
  · rw [execLds, withDirect_rejected hw]
    exact runsOutIff_of_halted rfl (.inl hw)
  · rw [execLds_eq d k s hw]
    exact runsOutIff_congr (runsOutIff_ite (runsOutIff_ite (runsOutIff_of_running hs))) (or_iff_right hw).symm

theorem runsOutIff_execSts (k : DirectField) (d : RegNum) (hs : s.status = .running) :
    RunsOutIff (execSts k d s) (windowRejects s.params (effectiveAddress s.params k) ∨
      ¬ s.hasCell d.toNat ∨ ¬ s.hasCell (effectiveAddress s.params k) ∨ False) := by
  by_cases hw : windowRejects s.params (effectiveAddress s.params k)
  · rw [execSts, withDirect_rejected hw]
    exact runsOutIff_of_halted rfl (.inl hw)
  · rw [execSts_eq k d s hw]
    exact runsOutIff_congr (runsOutIff_ite (runsOutIff_ite (runsOutIff_of_running hs))) (or_iff_right hw).symm

/-- In accesses its register only when it takes a byte (46_io.md R177). -/
theorem runsOutIff_execInp (d : RegNum) (port : PortNum) (hs : s.status = .running) :
    RunsOutIff (execInp d port s) ((port.toNat = 0 ∧ s.input ≠ []) ∧ ¬ s.hasCell d.toNat) := by
  by_cases hp : port.toNat = 0
  · cases hi : s.input with
    | nil =>
      rw [execInp_held hp hi]
      exact runsOutIff_congr (runsOutIff_of_running hs) (by simp)
    | cons v rest =>
      by_cases hd : s.hasCell d.toNat
      · rw [execInp_taken hp hi hd]
        exact runsOutIff_congr (runsOutIff_of_running hs) (by simp [hd])
      · rw [execInp_missing hp hi hd]
        exact runsOutIff_of_halted rfl ⟨⟨hp, by simp⟩, hd⟩
  · rw [execInp_other hp]
    exact runsOutIff_congr (runsOutIff_of_running hs) (by simp [hp])

/-- Out accesses its register only for a port with a device (46_io.md R178). -/
theorem runsOutIff_execOut (port : PortNum) (d : RegNum) (hs : s.status = .running) :
    RunsOutIff (execOut port d s) (port.toNat < 3 ∧ ¬ s.hasCell d.toNat) := by
  rw [execOut_eq]
  split
  · next hp => exact runsOutIff_congr (runsOutIff_ite (runsOutIff_of_running hs)) (by simp [hp])
  · next hp => exact runsOutIff_congr (runsOutIff_of_running hs) (by simp [hp])

theorem runsOutIff_branchIf (taken : Bool) (k : BranchOffset) (hs : s.status = .running) :
    RunsOutIff (branchIf taken k s) False := by
  rw [branchIf_eq]
  cases taken with
  | false | true => exact runsOutIff_of_running hs

theorem runsOutIff_execBrk : RunsOutIff (execBrk s) False := by
  intro t ht
  injection ht with ht
  simp [← ht]

theorem runsOutIff_exec (i : Instr) (hs : s.status = .running) :
    RunsOutIff (exec i s) (windowRejectsInstr s.params i ∨ ∃ a ∈ cellsTouched s i, ¬ s.hasCell a) := by
  cases i with
  | nop | rjmp => exact runsOutIff_congr (runsOutIff_of_running hs) (by simp [windowRejectsInstr, cellsTouched])
  | brk => exact runsOutIff_congr runsOutIff_execBrk (by simp [windowRejectsInstr, cellsTouched])
  | brbs | brbc => exact runsOutIff_congr (runsOutIff_branchIf _ _ hs) (by simp [windowRejectsInstr, cellsTouched])
  | add d r | sub d r | adc d r | and d r | eor d r | or d r =>
    exact runsOutIff_congr (runsOutIff_combineRegs _ d r hs) (by simp [windowRejectsInstr, cellsTouched])
  | mov d r =>
    exact runsOutIff_congr (runsOutIff_execMov d r hs) (by simp [windowRejectsInstr, cellsTouched, or_comm])
  | subi d imm =>
    exact runsOutIff_congr (runsOutIff_modifyReg (fun f a => aluSub f a imm) d hs)
      (by simp [windowRejectsInstr, cellsTouched])
  | lsr d =>
    exact runsOutIff_congr (runsOutIff_modifyReg aluLsr d hs) (by simp [windowRejectsInstr, cellsTouched])
  | ldi d imm =>
    exact runsOutIff_congr (runsOutIff_execLdi d imm hs) (by simp [windowRejectsInstr, cellsTouched])
  | lds d k =>
    exact runsOutIff_congr (runsOutIff_execLds d k hs) (by simp [windowRejectsInstr, cellsTouched])
  | sts k d =>
    exact runsOutIff_congr (runsOutIff_execSts k d hs)
      (by simp [windowRejectsInstr, cellsTouched, or_comm (a := s.params.dataSize ≤ d.toNat)])
  | inp d port =>
    exact runsOutIff_congr (runsOutIff_execInp d port hs) (by simp [windowRejectsInstr, cellsTouched])
  | out port d =>
    exact runsOutIff_congr (runsOutIff_execOut port d hs) (by simp [windowRejectsInstr, cellsTouched])

/-- Settles O33: each instruction halts at the first of its accesses that is rejected or finds no cell. -/
theorem outOfMemoryExactlyWhenACellIsMissing : Obligations.OutOfMemoryExactlyWhenACellIsMissing :=
  fun i _ t hs h => runsOutIff_exec i hs t h

/-! ### What cannot run out of memory -/

/-- Apart from Lds and Sts an instruction accesses registers only (20_memory.md R61). -/
theorem lt_of_mem_cellsTouched {i : Instr} (hi : isDirectMemory i = false) {a : Nat} (ha : a ∈ cellsTouched s i) :
    a < 32 := by
  cases i with
  | lds | sts => cases hi
  | nop | brk | rjmp | brbs | brbc => cases ha
  | add d r | sub d r | adc d r | and d r | eor d r | or d r | mov d r =>
    obtain rfl | rfl := List.mem_pair.mp ha
    · exact d.isLt
    · exact r.isLt
  | subi d imm | lsr d | ldi d imm =>
    rw [List.mem_singleton.mp ha]
    exact d.isLt
  | inp d port | out port d =>
    rw [cellsTouched] at ha
    split at ha
    · rw [List.mem_singleton.mp ha]
      exact d.isLt
    · cases ha

theorem not_windowRejectsInstr {i : Instr} (hi : isDirectMemory i = false) (p : Params) :
    ¬ windowRejectsInstr p i := by
  cases i with
  | lds | sts => cases hi
  | nop | add | sub | adc | and | eor | or | mov | subi | lsr | brk | inp | out | rjmp | ldi | brbs | brbc => exact id

/-- Settles O34: the registers exist, and no other instruction accesses anything else. -/
theorem onlyDirectAccessCanRunOutOfMemory : Obligations.OnlyDirectAccessCanRunOutOfMemory := by
  intro i s t hsize hs hi h hout
  rcases (runsOutIff_exec i hs t h).mp hout with hw | ⟨a, ha, hmissing⟩
  · exact not_windowRejectsInstr hi _ hw
  · exact hmissing (Nat.lt_of_lt_of_le (lt_of_mem_cellsTouched hi ha) hsize)

/-- An instruction other than Break completes where the window check passes and every cell it accesses exists. -/
theorem exists_exec_running {i : Instr} (hs : s.status = .running) (hi : i ≠ .brk)
    (hw : ¬ windowRejectsInstr s.params i) (hcells : ∀ a ∈ cellsTouched s i, s.hasCell a) :
    ∃ t, exec i s = .next t ∧ t.status = .running := by
  obtain ⟨t, ht⟩ := exists_exec_next i s
  have hnot : t.status ≠ .haltedFault .outOfMemory := by
    intro hout
    rcases (runsOutIff_exec i hs t ht).mp hout with hrejects | ⟨a, ha, hmissing⟩
    · exact hw hrejects
    · exact hmissing (hcells a ha)
  rcases onlyBreakHaltsCleanly i s t ht with hkept | hout | ⟨hbrk, -⟩
  · exact ⟨t, ht, hkept.trans hs⟩
  · exact absurd hout hnot
  · exact absurd hbrk hi

theorem not_windowRejects_of_off {p : Params} (hp : p.windowCheck = false) (ea : Nat) : ¬ windowRejects p ea := by
  simp [windowRejects, hp]

/-- The default DirectAddr is zero extension (43_direct_memory.md R146). -/
theorem effectiveAddress_of_default {p : Params} (hp : p.directAddr = Params.zeroExtendTable) (k : DirectField) :
    effectiveAddress p k = k.toNat := by
  simp [effectiveAddress, hp, Params.zeroExtendTable]

/-- Settles O35: with the defaults no address is rejected, and registers and addressed cells lie below 128. -/
theorem directAccessNeverFaultsByDefault : Obligations.DirectAccessNeverFaultsByDefault := by
  intro d k s hsize hwindow htable hs
  have hw : ¬ windowRejects s.params (effectiveAddress s.params k) := not_windowRejects_of_off hwindow _
  have hcells : ∀ a ∈ [effectiveAddress s.params k, d.toNat], s.hasCell a := by
    rw [effectiveAddress_of_default htable]
    intro a ha
    obtain rfl | rfl := List.mem_pair.mp ha
    · exact Nat.lt_of_lt_of_le k.isLt hsize
    · exact Nat.lt_of_lt_of_le d.isLt (Nat.le_trans (by decide) hsize)
  exact ⟨exists_exec_running (i := .lds d k) hs nofun hw hcells,
    exists_exec_running (i := .sts k d) hs nofun hw hcells⟩

end Sys2Proof.Proofs
end

section
/-!
PROOFS. Port input (spec/46_io.md section 2): In takes one byte and moves it to its register, holds while none waits,
halts where the register is missing, and from a port without an input device falls through (R177).
-/
namespace Sys2Proof.Proofs

open Sys2Proof Sys2Proof.Machine

/-! ### The three outcomes at port 0, and every other port -/

/-- The halt of a faulting In is that of any missing register, but for the input and its draw. -/
theorem halt_drawFaultingInput_eq (s : State) (rest : List Byte) :
    (s.drawFaultingInput rest).halt (.haltedFault .outOfMemory) =
      { s.afterOutOfMemory [] with
        input := (s.drawFaultingInput rest).input, freeIndex := (s.drawFaultingInput rest).freeIndex } := by
  rw [← State.afterOutOfMemory_eq, State.withRecords_nil]
  rfl

/-- The byte is taken or not (93_implementation_defined.md U9). -/
theorem drawFaultingInput_input_cases (s : State) (rest : List Byte) :
    (s.drawFaultingInput rest).input = s.input ∨ (s.drawFaultingInput rest).input = rest := by
  rw [State.drawFaultingInput_input]
  split
  · exact .inr rfl
  · exact .inl rfl

/-- Settles O22: the four clauses are the four cases of `execInp`, the byte being moved once it is off the input. -/
theorem inTakesOneByteHoldsOrFallsThrough : Obligations.InTakesOneByteHoldsOrFallsThrough := by
  refine ⟨decodesAs_operands (op := .inp) rfl, fun d port s => ?_⟩
  rw [exec]
  refine ⟨fun v rest hp hi hd => ?_, fun hp hi => execInp_held hp hi, fun v rest hp hi hd => ?_, fun hp => ?_⟩
  · rw [execInp_taken hp hi hd]
    exact ⟨_, rfl, afterWrite_movedByte { s with input := rest } d.toNat v _, afterWrite_traceGrowsBy _ _ _ _ _⟩
  · rw [execInp_missing hp hi hd]
    exact ⟨_, rfl, halt_drawFaultingInput_eq s rest, drawFaultingInput_input_cases s rest⟩
  · rw [execInp_other hp]
    exact ⟨_, rfl, rfl, State.advance_pc_toNat s⟩

end Sys2Proof.Proofs
end

section
/-!
PROOFS. The host's operations (spec/47_engine_and_host.md section 3): what the views and the halt reason show (R196,
R199), what the trace toggle and a supplied byte change (R197, 46_io.md R177), and where a program is installed (R192).
-/
namespace Sys2Proof.Proofs

open Sys2Proof Sys2Proof.Machine

/-! ### Views, halt reason, trace toggle and supplied input -/

theorem viewRegisters_shows (s : State) : ViewShows (viewRegisters s) (32 ≤ s.params.dataSize) 32 s.cell := by
  have h := viewBank_shows s.dm s.params.dataSize 0 32
  simp only [Nat.zero_add] at h
  exact h

theorem haltReason_of_running {s : State} (hs : s.status = .running) : haltReason s = none := by
  simp only [haltReason, hs]

theorem haltReason_of_halted {s : State} (hs : s.status ≠ .running) : haltReason s = some s.status := by
  rw [haltReason]
  cases h : s.status with
  | running => exact absurd h hs
  | haltedBreak | haltedFault kind => rfl

/-- Settles O52: the three range views are views of a bank, and each pair is missing its high register. -/
theorem viewsShowTheCells : Obligations.ViewsShowTheCells := fun s a n =>
  ⟨viewRegisters_shows s, viewBank_shows s.dm _ a n, viewBank_shows s.pm _ a n,
   viewPair_none (hi := 27), viewPair_none (hi := 29), viewPair_none (hi := 31),
   haltReason_of_running, haltReason_of_halted⟩

/-- Settles O53: each operation is the write of its field. -/
theorem traceToggleAndSuppliedInputChangeOneField : Obligations.TraceToggleAndSuppliedInputChangeOneField :=
  fun _ _ _ => ⟨rfl, rfl⟩

/-! ### Installing a program -/

theorem installFrom_done {size i : Nat} {ws : List Word} (m : ProgMemory) (h : i + ws.length ≤ size) :
    (installFrom size i ws m).2 = .done := by
  induction ws generalizing i m with
  | nil => rfl
  | cons w ws ih =>
    rw [List.length_cons] at h
    rw [installFrom, if_pos (by omega)]
    exact ih _ (by omega)

theorem installFrom_outOfMemory {size i : Nat} {ws : List Word} (m : ProgMemory) (hi : i ≤ size)
    (h : size < i + ws.length) : (installFrom size i ws m).2 = .outOfMemory := by
  induction ws generalizing i m with
  | nil =>
    rw [List.length_nil] at h
    omega
  | cons w ws ih =>
    rw [List.length_cons] at h
    rw [installFrom]
    split
    · exact ih _ (by omega) (by omega)
    · rfl

/-- The cells from `i` on that exist take the words, as far as there are any; every other cell keeps its value. -/
theorem read_installFrom (size i : Nat) (ws : List Word) (m : ProgMemory) (j : Nat) :
    Bank.read (installFrom size i ws m).1 j =
      if i ≤ j ∧ j < size then ws[j - i]?.getD (Bank.read m j) else Bank.read m j := by
  induction ws generalizing i m with
  | nil => simp [installFrom]
  | cons w ws ih =>
    rw [installFrom]
    split
    · next hi =>
      rw [ih, Bank.read_write]
      obtain hlt | rfl | hgt := Nat.lt_trichotomy i j
      · have hindex : j - i = j - (i + 1) + 1 := by omega
        simp only [hindex, List.getElem?_cons_succ, Nat.ne_of_gt hlt, if_false, Nat.succ_le_of_lt hlt, hlt.le]
      · simp [hi]
      · simp only [Nat.not_le_of_lt hgt, Nat.not_le_of_lt (Nat.lt_succ_of_lt hgt), Nat.ne_of_lt hgt, false_and,
          if_false]
    · next hi => rw [if_neg (by omega)]

theorem read_installProgram (words : List Word) (s : State) (j : Nat) :
    Bank.read (installProgram words s).1.pm j =
      if j < s.params.progSize then words[j]?.getD (Bank.read s.pm j) else Bank.read s.pm j := by
  simp only [installProgram_fst_pm, read_installFrom, Nat.zero_le, true_and, Nat.sub_zero]

/-- Settles O51: the words stand in the cells from 0 on that exist, and the report is whether all of them do. -/
theorem installWritesFromCellZero : Obligations.InstallWritesFromCellZero := by
  intro words s
  refine ⟨rfl, fun hfit => ?_, fun hlong => ?_, fun j w hw hj => ?_, fun j hj => ?_⟩
  · exact installFrom_done s.pm (by omega)
  · exact installFrom_outOfMemory s.pm (Nat.zero_le _) (by omega)
  · rw [read_installProgram, if_pos hj, hw, Option.getD_some]
  · rw [read_installProgram]
    split
    · next hinside =>
      have hbeyond : words.length ≤ j := hj.resolve_right (Nat.not_le_of_lt hinside)
      rw [List.getElem?_eq_none hbeyond, Option.getD_none]
    · rfl

end Sys2Proof.Proofs
end

section
/-!
PROOFS. Runs (spec/47_engine_and_host.md section 2): a run ends in the first halted state (R190, R191), and a run that
falls into zero cells takes them as Nops and halts past the end of program memory (45_nop_break.md section header,
70_reset_and_hazards.md R244, R245).
-/
namespace Sys2Proof.Proofs

open Sys2Proof Sys2Proof.Machine

/-! ### Steps counted one by one -/

theorem runSteps_succ {s u : State} (hstep : step s = .next u) (n : Nat) : runSteps (n + 1) s = runSteps n u := by
  rw [runSteps, hstep]

/-- `n` steps lead from `s` to `t`, and every state before `t` is Running. -/
def RunsTo (n : Nat) (s t : State) : Prop :=
  runSteps n s = .next t ∧ ∀ m u, m < n → runSteps m s = .next u → u.status = .running

theorem runsTo_zero_iff {s t : State} : RunsTo 0 s t ↔ s = t := by
  constructor
  · rintro ⟨h, -⟩
    injection h
  · rintro rfl
    exact ⟨rfl, fun m u hm => absurd hm (Nat.not_lt_zero m)⟩

theorem runsTo_succ_iff {s u t : State} {n : Nat} (hs : s.status = .running) (hstep : step s = .next u) :
    RunsTo (n + 1) s t ↔ RunsTo n u t := by
  rw [RunsTo, runSteps_succ hstep, RunsTo]
  refine and_congr_right fun _ => ⟨fun h m v hm hv => ?_, fun h m v hm hv => ?_⟩
  · exact h (m + 1) v (Nat.succ_lt_succ hm) ((runSteps_succ hstep m).trans hv)
  · cases m with
    | zero =>
      injection hv with hv
      exact hv ▸ hs
    | succ m => exact h m v (Nat.lt_of_succ_lt_succ hm) ((runSteps_succ hstep m).symm.trans hv)

theorem running_of_runsTo_succ {s t : State} {n : Nat} (h : RunsTo (n + 1) s t) : s.status = .running :=
  h.2 0 s n.succ_pos rfl

/-! ### The run operation -/

theorem runToHalt_of_halted {s : State} (hs : s.status ≠ .running) (fuel : Nat) : runToHalt fuel s = some s := by
  cases fuel with
  | zero | succ fuel => exact if_neg hs

theorem runToHalt_zero_of_running {s : State} (hs : s.status = .running) : runToHalt 0 s = none := if_pos hs

theorem runToHalt_succ_of_running {s u : State} (hs : s.status = .running) (hstep : step s = .next u) (fuel : Nat) :
    runToHalt (fuel + 1) s = runToHalt fuel u := by
  rw [runToHalt, if_pos hs, hstep]

/-- From a Running state a run that ends in a halt takes a step first. -/
theorem exists_runsTo_iff_of_running {s u t : State} (hs : s.status = .running) (hstep : step s = .next u)
    (ht : t.status ≠ .running) (fuel : Nat) :
    (∃ n, n ≤ fuel + 1 ∧ RunsTo n s t) ↔ ∃ n, n ≤ fuel ∧ RunsTo n u t := by
  constructor
  · rintro ⟨n, hn, hruns⟩
    cases n with
    | zero => exact absurd (runsTo_zero_iff.mp hruns ▸ hs) ht
    | succ n => exact ⟨n, Nat.le_of_succ_le_succ hn, (runsTo_succ_iff hs hstep).mp hruns⟩
  · rintro ⟨n, hn, hruns⟩
    exact ⟨n + 1, Nat.succ_le_succ hn, (runsTo_succ_iff hs hstep).mpr hruns⟩

/-- From a halted state the only run is the empty one. -/
theorem exists_runsTo_iff_of_halted {s t : State} (hs : s.status ≠ .running) (fuel : Nat) :
    (∃ n, n ≤ fuel ∧ RunsTo n s t) ↔ s = t := by
  constructor
  · rintro ⟨n, -, hruns⟩
    cases n with
    | zero => exact runsTo_zero_iff.mp hruns
    | succ n => exact absurd (running_of_runsTo_succ hruns) hs
  · intro h
    exact ⟨0, Nat.zero_le fuel, runsTo_zero_iff.mpr h⟩

theorem runToHalt_eq_some_iff_of_halted {s t : State} (hs : s.status ≠ .running) (fuel : Nat) :
    runToHalt fuel s = some t ↔ t.status ≠ .running ∧ ∃ n, n ≤ fuel ∧ RunsTo n s t := by
  rw [runToHalt_of_halted hs, Option.some_inj, exists_runsTo_iff_of_halted hs]
  exact ⟨fun h => ⟨h ▸ hs, h⟩, And.right⟩

/-- Settles O31, by induction on the fuel: a halted state is the end of its run, and a Running one steps, after which
both sides go on from the next state. -/
theorem runEndsAtTheFirstHalt : Obligations.RunEndsAtTheFirstHalt := by
  intro fuel s t
  induction fuel generalizing s with
  | zero =>
    by_cases hs : s.status = .running
    · rw [runToHalt_zero_of_running hs]
      refine iff_of_false nofun fun ⟨ht, n, hn, hruns⟩ => ?_
      obtain rfl := Nat.le_zero.mp hn
      exact ht (runsTo_zero_iff.mp hruns ▸ hs)
    · exact runToHalt_eq_some_iff_of_halted hs 0
  | succ fuel ih =>
    by_cases hs : s.status = .running
    · obtain ⟨u, hstep⟩ := runningEngineAlwaysSteps s hs
      rw [runToHalt_succ_of_running hs hstep, ih]
      exact and_congr_right fun ht => (exists_runsTo_iff_of_running hs hstep ht fuel).symm
    · exact runToHalt_eq_some_iff_of_halted hs (fuel + 1)

/-! ### Running off the end -/

/-- A zero cell is a Nop (45_nop_break.md section header). -/
theorem step_of_zero_cell {s : State} (hs : s.status = .running) (hp : s.pc.toNat < s.params.progSize)
    (hzero : Bank.read s.pm s.pc.toNat = 0) : step s = .next s.advance := by
  have hnop : decode (Bank.read s.pm s.pc.toNat) = .instr .nop := by
    rw [hzero]
    decide
  rw [step_of_decode hs hp hnop, exec_nop]

/-- Settles O32, by induction on the number of cells left: each is a Nop, and past the last the fetch halts. -/
theorem zeroCellsRunOffTheEnd : Obligations.ZeroCellsRunOffTheEnd := by
  intro n
  induction n with
  | zero =>
    intro s hs _ hend _
    have hstep : step s = .next (s.halt (.haltedFault .outOfMemory)) :=
      step_of_fetch_eq_none hs (fetch_outside (by omega))
    have hpc : BitVec.ofNat 16 s.params.progSize = s.pc := by
      rw [← hend, Nat.add_zero, BitVec.ofNat_toNat, BitVec.setWidth_eq]
    rw [runSteps_succ hstep, hpc]
    rfl
  | succ n ih =>
    intro s hs hsize hend hzero
    have hstep : step s = .next s.advance := step_of_zero_cell hs (by omega) (hzero 0 n.succ_pos)
    have hpc : s.advance.pc.toNat = s.pc.toNat + 1 := by
      rw [State.advance_pc_toNat, Nat.mod_eq_of_lt (by omega)]
    rw [runSteps_succ hstep, ih s.advance hs hsize]
    · rfl
    · rw [hpc, State.advance_params]
      omega
    · intro j hj
      rw [hpc, State.advance_pm, Nat.add_assoc, Nat.add_comm 1 j]
      exact hzero (j + 1) (Nat.succ_lt_succ hj)

end Sys2Proof.Proofs
end

section
/-!
PROOFS. Laws that join two instructions or two readings: a canonical bank is its contents (spec/20_memory.md R52), a
load after a store returns the byte (R64), Add and Adc add 16-bit numbers (40_alu_register.md section 2), and Subi of a
complement adds (41_alu_immediate.md section header). The instructions are used through their rules alone.
-/
namespace Sys2Proof.Proofs

open Sys2Proof Sys2Proof.Machine

/-! ### A canonical bank is its contents -/

section
variable {n : Nat} {m : Bank n}

/-- A listed cell is what its address reads, no address being listed twice. -/
theorem read_eq_of_mem (hm : m.Pairwise fun x y => x.1 < y.1) {c : Nat × BitVec n} (hc : c ∈ m) :
    Bank.read m c.1 = c.2 := by
  induction m with
  | nil => cases hc
  | cons x m ih =>
    obtain ⟨hlt, htail⟩ := List.pairwise_cons.mp hm
    rw [Bank.read]
    obtain rfl | hc := List.mem_cons.mp hc
    · exact if_pos rfl
    · rw [if_neg (Nat.ne_of_gt (hlt c hc)), ih htail hc]

/-- What does not read as the reset value is listed. -/
theorem mem_of_read_ne_zero {a : Nat} (h : Bank.read m a ≠ 0) : (a, Bank.read m a) ∈ m := by
  induction m with
  | nil => exact absurd (Bank.read_nil a) h
  | cons x m ih =>
    rw [Bank.read] at h ⊢
    split
    · next ha =>
      rw [ha]
      exact List.mem_cons_self
    · next ha =>
      rw [if_neg ha] at h
      exact List.mem_cons_of_mem x (ih h)

/-- A canonical bank lists exactly the cells that do not read as the reset value. -/
theorem mem_iff_of_wf (hm : Bank.wf m) (c : Nat × BitVec n) : c ∈ m ↔ c.2 ≠ 0 ∧ Bank.read m c.1 = c.2 := by
  obtain ⟨hrising, hnonzero⟩ := hm
  constructor
  · intro hc
    exact ⟨hnonzero c hc, read_eq_of_mem hrising hc⟩
  · rintro ⟨hne, hread⟩
    have hmem : (c.1, Bank.read m c.1) ∈ m := mem_of_read_ne_zero (hread ▸ hne)
    rwa [hread] at hmem

end

/-- Settles O44: both banks list the same cells, in rising order. -/
theorem canonicalBankIsItsContents : Obligations.CanonicalBankIsItsContents := by
  intro n m m' hm hm' hread
  have : Std.Irrefl fun x y : Nat × BitVec n => x.1 < y.1 := ⟨fun x => Nat.lt_irrefl x.1⟩
  have : Std.Antisymm fun x y : Nat × BitVec n => x.1 < y.1 := ⟨fun _ _ h h' => absurd h' (Nat.lt_asymm h)⟩
  apply List.Pairwise.eq_of_mem_iff hm.1 hm'.1
  intro c
  rw [mem_iff_of_wf hm, mem_iff_of_wf hm', hread]

/-! ### Load after store -/

/-- Which cells exist depends on the parameters alone (20_memory.md R53). -/
theorem hasCell_of_params_eq {s t : State} {a : Nat} (h : t.params = s.params) (ha : s.hasCell a) : t.hasCell a := by
  rwa [State.hasCell, h]

/-- Settles O46: the store leaves the byte in the addressed cell and the parameters as they were, so the load passes
the same check and moves that byte. -/
theorem storeThenLoadReturnsTheByte : Obligations.StoreThenLoadReturnsTheByte := by
  intro k r d s hr hd hea hw
  obtain ⟨t, ht, hstored, -⟩ := ((stsRuleWhole.2 k r s).2 hw).1 hr hea
  have hparams : t.params = s.params := hstored.elsewhere.params
  have hload := (ldsRuleWhole.2 d k t).2
  rw [hparams] at hload
  obtain ⟨u, hu, hloaded, -⟩ := (hload hw).1 (hasCell_of_params_eq hparams hea) (hasCell_of_params_eq hparams hd)
  refine ⟨t, u, ht, hu, ?_⟩
  calc u.reg d = t.cell (effectiveAddress s.params k) := hloaded.value
    _ = s.reg r := hstored.value

/-! ### Sixteen-bit addition -/

/-- An instruction that writes register `d` leaves every other register. -/
theorem reg_eq_of_onlyCellChanged {s t : State} {d i : RegNum} (h : OnlyCellChanged s t d.toNat) (hi : i ≠ d) :
    t.reg i = s.reg i :=
  h i.toNat fun heq => hi (BitVec.eq_of_toNat_eq heq)

/-- The carry of a sum of two bytes is the quotient of the sum by 256. -/
theorem toNat_decide_carry {x : Nat} (hx : x < 512) : (decide (255 < x)).toNat = x / 256 := by
  by_cases h : 255 < x
  · rw [decide_eq_true h, Bool.toNat_true]
    omega
  · rw [decide_eq_false h, Bool.toNat_false]
    omega

/-- Settles O47: the high registers and, after Adc, the low destination keep what they held, and the carry of Add is
the one Adc adds. -/
theorem addThenAdcAddsSixteenBits : Obligations.AddThenAdcAddsSixteenBits := by
  intro dl dh rl rh s hdl hdh hrl hrh hne hner
  obtain ⟨t, ht, hadd, -⟩ := (addRuleWhole.2 dl rl s).1 hdl hrl
  have hparams : t.params = s.params := hadd.elsewhere.params
  obtain ⟨u, hu, hadc, -⟩ := (adcRuleWhole.2 dh rh t).1 (hasCell_of_params_eq hparams hdh)
    (hasCell_of_params_eq hparams hrh)
  refine ⟨t, u, ht, hu, ?_⟩
  have hlow : (u.reg dl).toNat = ((s.reg dl).toNat + (s.reg rl).toNat) % 256 := by
    rw [reg_eq_of_onlyCellChanged hadc.frame hne]
    exact hadd.value
  have hdh' : t.reg dh = s.reg dh := reg_eq_of_onlyCellChanged hadd.frame hne.symm
  have hrh' : t.reg rh = s.reg rh := reg_eq_of_onlyCellChanged hadd.frame hner.symm
  have hcarry : (flagAt t.flags 0).toNat = ((s.reg dl).toNat + (s.reg rl).toNat) / 256 := by
    rw [hadd.flags.1]
    exact toNat_decide_carry (by omega)
  have hhigh : (u.reg dh).toNat = ((t.reg dh).toNat + (t.reg rh).toNat + (flagAt t.flags 0).toNat) % 256 := hadc.value
  have hout : flagAt u.flags 0 = decide (255 < (t.reg dh).toNat + (t.reg rh).toNat + (flagAt t.flags 0).toNat) :=
    hadc.flags.1
  rw [hdh', hrh', hcarry] at hhigh hout
  rw [hlow, hhigh, hout, decide_eq_true_iff]
  constructor <;> omega

/-! ### Subtracting a complement -/

theorem toNat_complement {imm : Byte} (h : imm ≠ 0) : (BitVec.ofNat 8 (256 - imm.toNat)).toNat = 256 - imm.toNat := by
  have hpos : imm.toNat ≠ 0 := fun h0 => h (BitVec.eq_of_toNat_eq h0)
  rw [BitVec.toNat_ofNat]
  exact Nat.mod_eq_of_lt (by omega)

/-- Settles O48: the raw difference is the sum less 256, so it is negative exactly if the sum does not exceed 255. -/
theorem subiOfComplementAdds : Obligations.SubiOfComplementAdds := by
  intro d imm s hd himm
  obtain ⟨t, ht, hsubi, -⟩ := (subiRuleWhole.2 (BitVec.ofNat 8 (256 - imm.toNat)) d s).1 hd
  have hvalue : (t.reg d).toNat = (((s.reg d).toNat - (256 - imm.toNat : Nat) : Int) % 256).toNat :=
    toNat_complement himm ▸ hsubi.value
  have hborrow : flagAt t.flags 0 = decide (((s.reg d).toNat : Int) - (256 - imm.toNat : Nat) < 0) :=
    toNat_complement himm ▸ hsubi.flags.1
  refine ⟨t, ht, ?_, ?_⟩
  · rw [hvalue]
    omega
  · rw [hborrow, decide_eq_false_iff_not]
    omega

end Sys2Proof.Proofs
end
